-- ==== Sys2Proof/Word.lean ====
section
/-! DEFINITION. The word types of the block (spec/00_scope.md R6, R7). All values are unsigned. -/

namespace Sys2Proof

/-- One 8-bit code unit: a data byte or a symbol (R6 `SYMW`, R8). -/
abbrev Byte := BitVec 8

/-- The 5-bit value a symbol stands for (R6 `VALW`). -/
abbrev Val5 := BitVec 5

/-- A 10-bit field of the group word, an index into the Forward table (R6 `FIELDW`, R71). -/
abbrev Field10 := BitVec 10

/-- The 40-bit group word (R6 `ACCW`, R70). -/
abbrev GroupWord := BitVec 40

/-- The 2-bit command word (R26, R78): bit 0 is `E`, bit 1 is `D`. -/
abbrev CmdWord := BitVec 2

end Sys2Proof
end

