-- ==== Sys2Proof/Config.lean ====
section
/-! DEFINITION. What is fixed for the machine: the parameters of spec/00_scope.md R6, and the free values
(opaque constants with no body) for what the spec leaves open. -/

namespace Sys2Proof

/-- The agents that take steps (R20). -/
inductive Agent where
  | host
  | enc
  | dec
deriving DecidableEq, Repr, Inhabited

namespace Config

/-- R6 `GROUP_BYTES`: bytes in one encoder input group and one decoder output group. -/
def groupBytes : Nat := 5

/-- R6 `QUANTUM_CHARS`: symbols in one encoder output group and one decoder input group. -/
def quantumChars : Nat := 8

/-- R6 `MAX_IN = 2^LENW - 1`, for a given `LENW`. The machine itself takes `LENW` infinite, the reading R6 allows
(notes/assumptions/3.md); the bounds below say what a finite `LENW` asks of the registers and buffers. -/
def maxIn (lenw : Nat) : Nat := 2 ^ lenw - 1

/-- R6 `ENC_OUT_CAP = 8 * ceil(MAX_IN / 5)`. -/
def encOutCap (lenw : Nat) : Nat := 8 * ((maxIn lenw + 4) / 5)

/-- R6 `DEC_OUT_CAP = 5 * floor(MAX_IN / 8)`. -/
def decOutCap (lenw : Nat) : Nat := 5 * (maxIn lenw / 8)

/-- FREE VALUE (R20: "Any agent that has an enabled step may take it at any time"; notes/assumptions/1.md): the agent that
moves next when `State.turns` lists none, applied to the counter `State.tick`. -/
opaque freeTurn : Nat → Agent

/-- FREE VALUE (R194, U6: the host-side predicate `VIEW(x)`; notes/assumptions/16.md): the byte view of a host value that is
neither a text nor a byte sequence, `none` where it has none. -/
opaque view : Nat → Option (List Byte)

end Config

end Sys2Proof
end

