-- ==== Sys2Proof/Syntax.lean ====
section
/-! DEFINITION. Syntax: the encoded instructions (one constructor per row of spec/opcode_table.json) and the host's actions
(the ports of spec/10_state.md R33 and the host notation of spec/30_encoding.md R89). -/

namespace Sys2Proof

/-- The 35 rows of spec/opcode_table.json. The first three are the commands of format CMD (R79). The other 32 are the symbols
of format SYM, in order of their value (R100): a symbol reaches the block as a code unit of `DEC.IN` (R154). -/
inductive Instr where
  /-- `CMD = 0b00` (R79). -/
  | nop
  /-- `CMD = 0b01`, ENC.START (R133). -/
  | enc
  /-- `CMD = 0b10`, DEC.START (R165). -/
  | dec
  /-- The symbol `y`, code 0x79, value 0 (R100). -/
  | symY
  /-- The symbol `b`, code 0x62, value 1 (R100). -/
  | symB
  /-- The symbol `n`, code 0x6E, value 2 (R100). -/
  | symN
  /-- The symbol `d`, code 0x64, value 3 (R100). -/
  | symD
  /-- The symbol `r`, code 0x72, value 4 (R100). -/
  | symR
  /-- The symbol `f`, code 0x66, value 5 (R100). -/
  | symF
  /-- The symbol `g`, code 0x67, value 6 (R100). -/
  | symG
  /-- The symbol `8`, code 0x38, value 7 (R100). -/
  | sym8
  /-- The symbol `e`, code 0x65, value 8 (R100). -/
  | symE
  /-- The symbol `j`, code 0x6A, value 9 (R100). -/
  | symJ
  /-- The symbol `k`, code 0x6B, value 10 (R100). -/
  | symK
  /-- The symbol `m`, code 0x6D, value 11 (R100). -/
  | symM
  /-- The symbol `c`, code 0x63, value 12 (R100). -/
  | symC
  /-- The symbol `p`, code 0x70, value 13 (R100). -/
  | symP
  /-- The symbol `q`, code 0x71, value 14 (R100). -/
  | symQ
  /-- The symbol `x`, code 0x78, value 15 (R100). -/
  | symX
  /-- The symbol `o`, code 0x6F, value 16 (R100). -/
  | symO
  /-- The symbol `t`, code 0x74, value 17 (R100). -/
  | symT
  /-- The symbol `1`, code 0x31, value 18 (R100). -/
  | sym1
  /-- The symbol `u`, code 0x75, value 19 (R100). -/
  | symU
  /-- The symbol `w`, code 0x77, value 20 (R100). -/
  | symW
  /-- The symbol `i`, code 0x69, value 21 (R100). -/
  | symI
  /-- The symbol `s`, code 0x73, value 22 (R100). -/
  | symS
  /-- The symbol `z`, code 0x7A, value 23 (R100). -/
  | symZ
  /-- The symbol `a`, code 0x61, value 24 (R100). -/
  | symA
  /-- The symbol `3`, code 0x33, value 25 (R100). -/
  | sym3
  /-- The symbol `4`, code 0x34, value 26 (R100). -/
  | sym4
  /-- The symbol `5`, code 0x35, value 27 (R100). -/
  | sym5
  /-- The symbol `h`, code 0x68, value 28 (R100). -/
  | symH
  /-- The symbol `7`, code 0x37, value 29 (R100). -/
  | sym7
  /-- The symbol `6`, code 0x36, value 30 (R100). -/
  | sym6
  /-- The symbol `9`, code 0x39, value 31 (R100). -/
  | sym9
deriving DecidableEq, Repr

/-- The two engines (R1): `X` of the rules. -/
inductive Engine where
  | enc
  | dec
deriving DecidableEq, Repr

/-- What the host may hand to the document's `decode` (R190 to R195). -/
inductive HostValue where
  /-- A text: the code points of its characters, in order (R192). -/
  | text (codepoints : List Nat)
  /-- A byte sequence (R193). -/
  | bytes (units : List Byte)
  /-- Any other value, named by a number; its byte view, if it has one, is the free value `Config.view` (R194). -/
  | other (tag : Nat)
deriving DecidableEq, Repr

/-- One action of the host agent (R20): one access to a port of R33, `WAIT` and `READ` of R89, or the adapter of R191. -/
inductive HostAct where
  /-- Assert `rst` (R230). -/
  | rst
  /-- Write the command register (R26, R79). -/
  | writeCmd (w : CmdWord)
  /-- Read the command register (R239). -/
  | readCmd
  /-- Write `X.LEN` (R28). -/
  | writeLen (x : Engine) (n : Nat)
  /-- Read `X.LEN` (R28). -/
  | readLen (x : Engine)
  /-- Write `X.IN[i]` (R29). -/
  | writeIn (x : Engine) (i : Nat) (v : Byte)
  /-- Read `X.IN[i]` (R33). -/
  | readIn (x : Engine) (i : Nat)
  /-- Read `X.ST` (R25). -/
  | readSt (x : Engine)
  /-- Read `DEC.ERR` (R27). -/
  | readErr
  /-- Read `X.OLEN` (R28). -/
  | readOlen (x : Engine)
  /-- Read `X.OUT[i]` (R29). -/
  | readOut (x : Engine) (i : Nat)
  /-- `WAIT X`: read `X.ST` until it is not BUSY (R89). -/
  | wait (x : Engine)
  /-- `READ X`: read `X.ST`, `X.OLEN`, `DEC.ERR` when X is DEC, and the result when DONE (R89). -/
  | read (x : Engine)
  /-- The document's `decode(x)` as a host program: NORMALIZE, then `DEC lit` (R191, R196). -/
  | submit (x : HostValue)
deriving DecidableEq, Repr

end Sys2Proof
end

