-- ==== Sys2Proof/Machine/Normalize.lean ====
section
/-! DEFINITION. The host-side adapter in front of DEC (spec/43_input_normalization.md). It runs on the host and touches no
hardware state (R191, R195). -/

namespace Sys2Proof.Machine

/-- The two error kinds of the adapter (spec/60_exceptions.md R205, R206). -/
inductive AdapterError where
  /-- A text holds a character above `0x7F` (R192). -/
  | invalidCharacterSet
  /-- The value is no text, no byte sequence and has no byte view (R194). -/
  | unsupportedType
deriving DecidableEq, Repr

/-- `NORMALIZE(x)` (R195): the code units of a host value, or the adapter's error. A code point is never cut to 8 bits
(R243): every one is tested first. -/
def normalizeValue : HostValue → Except AdapterError (List Byte)
  | .text cps =>
    if cps.all (fun cp => decide (cp ≤ 0x7F)) then .ok (cps.map (BitVec.ofNat 8)) else .error .invalidCharacterSet
  | .bytes us => .ok us
  | .other t =>
    match Config.view t with
    | some us => .ok us
    | none    => .error .unsupportedType

end Sys2Proof.Machine
end

