-- ==== Sys2Proof/WellFormed.lean ====
section
/-! DEFINITION. Well-formedness of syntax. -/

namespace Sys2Proof

/-- Every instruction is well formed: no operation has an immediate or an operand field (spec/30_encoding.md R82), so an
`Instr` has nothing that could be out of range. The reserved command word is no `Instr` at all (R79). -/
def Instr.wf (_ : Instr) : Bool := true

/-- A host action the interface admits in some state, for a given `LENW` (spec/00_scope.md R6): the command word is not the
reserved one (R79, R238), `CMD` is not read (R239), a length is at most `MAX_IN` (R28, R240), and a buffer index lies inside
the buffer (R29). -/
def HostAct.wf (lenw : Nat) : HostAct → Bool
  | .rst | .readErr => true
  | .writeCmd w => w != 0b11
  | .readCmd => false
  | .writeLen _ n => decide (n ≤ Config.maxIn lenw)
  | .readLen _ | .readSt _ | .readOlen _ | .wait _ | .read _ => true
  | .writeIn _ i _ | .readIn _ i => decide (i < Config.maxIn lenw)
  | .readOut .enc i => decide (i < Config.encOutCap lenw)
  | .readOut .dec i => decide (i < Config.decOutCap lenw)
  | .submit x =>
    match Machine.normalizeValue x with
    | .ok us   => decide (us.length ≤ Config.maxIn lenw)
    | .error _ => true

end Sys2Proof
end

