-- ==== Sys2Proof/Decode.lean ====
section
/-! DEFINITION. Decoding and encoding. The command decoder and the Reverse table are "written from the table alone"
(spec/30_encoding.md R87): the rows below are spec/opcode_table.json's, each with its mask and pattern. -/

namespace Sys2Proof

/-- Why a word is no instruction. -/
inductive DecodeError where
  /-- `CMD = 0b11` (R79). -/
  | reservedCommand
  /-- A code unit that is no symbol (R75). -/
  | foreignUnit
  /-- No word is left. -/
  | noWord
deriving DecidableEq, Repr

/-- One row of the opcode table over words of `w` bits: a word matches when its bits under `mask` are `pattern`. -/
structure Row (w : Nat) where
  instr   : Instr
  pattern : BitVec w
  mask    : BitVec w
deriving DecidableEq, Repr

/-- The word is of this row. -/
def Row.matches (r : Row w) (x : BitVec w) : Bool := x &&& r.mask == r.pattern

/-- The rows of format CMD (R79). -/
def cmdRows : List (Row 2) :=
  [⟨.nop, 0b00, 0b11⟩, ⟨.enc, 0b01, 0b11⟩, ⟨.dec, 0b10, 0b11⟩]

/-- The rows of format SYM with values 0 to 7 (R100). -/
def symRows0 : List (Row 8) :=
  [⟨.symY, 0x79, 0xFF⟩, ⟨.symB, 0x62, 0xFF⟩, ⟨.symN, 0x6E, 0xFF⟩, ⟨.symD, 0x64, 0xFF⟩,
   ⟨.symR, 0x72, 0xFF⟩, ⟨.symF, 0x66, 0xFF⟩, ⟨.symG, 0x67, 0xFF⟩, ⟨.sym8, 0x38, 0xFF⟩]

/-- The rows of format SYM with values 8 to 15 (R100). -/
def symRows1 : List (Row 8) :=
  [⟨.symE, 0x65, 0xFF⟩, ⟨.symJ, 0x6A, 0xFF⟩, ⟨.symK, 0x6B, 0xFF⟩, ⟨.symM, 0x6D, 0xFF⟩,
   ⟨.symC, 0x63, 0xFF⟩, ⟨.symP, 0x70, 0xFF⟩, ⟨.symQ, 0x71, 0xFF⟩, ⟨.symX, 0x78, 0xFF⟩]

/-- The rows of format SYM with values 16 to 23 (R100). -/
def symRows2 : List (Row 8) :=
  [⟨.symO, 0x6F, 0xFF⟩, ⟨.symT, 0x74, 0xFF⟩, ⟨.sym1, 0x31, 0xFF⟩, ⟨.symU, 0x75, 0xFF⟩,
   ⟨.symW, 0x77, 0xFF⟩, ⟨.symI, 0x69, 0xFF⟩, ⟨.symS, 0x73, 0xFF⟩, ⟨.symZ, 0x7A, 0xFF⟩]

/-- The rows of format SYM with values 24 to 31 (R100). -/
def symRows3 : List (Row 8) :=
  [⟨.symA, 0x61, 0xFF⟩, ⟨.sym3, 0x33, 0xFF⟩, ⟨.sym4, 0x34, 0xFF⟩, ⟨.sym5, 0x35, 0xFF⟩,
   ⟨.symH, 0x68, 0xFF⟩, ⟨.sym7, 0x37, 0xFF⟩, ⟨.sym6, 0x36, 0xFF⟩, ⟨.sym9, 0x39, 0xFF⟩]

/-- The 32 rows of format SYM, in order of value. -/
def symRows : List (Row 8) := symRows0 ++ symRows1 ++ symRows2 ++ symRows3

/-- Decode a 2-bit command word (R78, R79). -/
def decodeCmd (w : CmdWord) : Except DecodeError Instr :=
  match cmdRows.find? (fun r => r.matches w) with
  | some r => .ok r.instr
  | none   => .error .reservedCommand

/-- Decode an 8-bit code unit as a symbol (R77, R87): the key test of the Reverse table. -/
def decodeUnit (c : Byte) : Except DecodeError Instr :=
  match symRows.find? (fun r => r.matches c) with
  | some r => .ok r.instr
  | none   => .error .foreignUnit

/-- Decode one byte that holds a word of either format: a command word zero-extended to a byte, or a code unit. The two
formats do not meet, since the units 0 to 3 are foreign (R75). DESIGN CHOICE, notes/assumptions/7.md. -/
def decodeByte (b : Byte) : Except DecodeError Instr :=
  if b.toNat < 4 then decodeCmd (b.setWidth 2) else decodeUnit b

/-- Decode the first word of a byte list; the rest of the list comes with it. -/
def decode : List Byte → Except DecodeError (Instr × List Byte)
  | []      => .error .noWord
  | b :: bs =>
    match decodeByte b with
    | .ok i    => .ok (i, bs)
    | .error e => .error e

/-- Decode a whole list of words; the first word that is none rejects the list. -/
def decodeAll : List Byte → Except DecodeError (List Instr)
  | []      => .ok []
  | b :: bs =>
    match decodeByte b, decodeAll bs with
    | .ok i, .ok is   => .ok (i :: is)
    | .error e, _     => .error e
    | .ok _, .error e => .error e

/-- The decoder on a word numbered as spec/opcode_table.json numbers it. The table gives a command 2 bits and a symbol 8;
in whole bytes both are 8. -/
def decodeTableWord (nbits w : Nat) : Option Instr :=
  if (nbits = 2 ∨ nbits = 8) ∧ w < 2 ^ nbits then
    match decode [BitVec.ofNat 8 w] with
    | .ok (i, _) => some i
    | .error _   => none
  else none

/-- The number of bits the table gives an instruction: 2 for a command (R78), 8 for a symbol (R100). -/
def Instr.width : Instr → Nat
  | .nop | .enc | .dec => 2
  | .symY | .symB | .symN | .symD | .symR | .symF | .symG | .sym8 | .symE | .symJ | .symK | .symM | .symC | .symP | .symQ | .symX
  | .symO | .symT | .sym1 | .symU | .symW | .symI | .symS | .symZ | .symA | .sym3 | .sym4 | .sym5 | .symH | .sym7 | .sym6 | .sym9 => 8

/-- The 5-bit value of a symbol (R100); a command has none. -/
def Instr.symValue : Instr → Option Val5
  | .nop | .enc | .dec => none
  | .symY => some 0
  | .symB => some 1
  | .symN => some 2
  | .symD => some 3
  | .symR => some 4
  | .symF => some 5
  | .symG => some 6
  | .sym8 => some 7
  | .symE => some 8
  | .symJ => some 9
  | .symK => some 10
  | .symM => some 11
  | .symC => some 12
  | .symP => some 13
  | .symQ => some 14
  | .symX => some 15
  | .symO => some 16
  | .symT => some 17
  | .sym1 => some 18
  | .symU => some 19
  | .symW => some 20
  | .symI => some 21
  | .symS => some 22
  | .symZ => some 23
  | .symA => some 24
  | .sym3 => some 25
  | .sym4 => some 26
  | .sym5 => some 27
  | .symH => some 28
  | .sym7 => some 29
  | .sym6 => some 30
  | .sym9 => some 31

/-- The word of an instruction, a command word zero-extended to a byte (R79, R100; notes/assumptions/7.md). -/
def encode : Instr → Byte
  | .nop => 0b00
  | .enc => 0b01
  | .dec => 0b10
  | .symY => 0x79
  | .symB => 0x62
  | .symN => 0x6E
  | .symD => 0x64
  | .symR => 0x72
  | .symF => 0x66
  | .symG => 0x67
  | .sym8 => 0x38
  | .symE => 0x65
  | .symJ => 0x6A
  | .symK => 0x6B
  | .symM => 0x6D
  | .symC => 0x63
  | .symP => 0x70
  | .symQ => 0x71
  | .symX => 0x78
  | .symO => 0x6F
  | .symT => 0x74
  | .sym1 => 0x31
  | .symU => 0x75
  | .symW => 0x77
  | .symI => 0x69
  | .symS => 0x73
  | .symZ => 0x7A
  | .symA => 0x61
  | .sym3 => 0x33
  | .sym4 => 0x34
  | .sym5 => 0x35
  | .symH => 0x68
  | .sym7 => 0x37
  | .sym6 => 0x36
  | .sym9 => 0x39

/-- The words of a list of instructions, in order. -/
def encodeAll (is : List Instr) : List Byte := is.map encode

end Sys2Proof
end

