-- ==== Sys2Proof/Machine/State.lean ====
section
/-! DEFINITION. The state of the machine (spec/10_state.md), plain data: the registers and buffers of the two engines, and the
model's own fields for the host agent and the order of turns. Also why a step stops, and the state after reset. -/

namespace Sys2Proof.Machine

/-- A status field `X.ST` (R25). The codes are in Flags.lean. -/
inductive Status where
  | idle
  | busy
  | done
  | error
deriving DecidableEq, Repr

/-- The cause of a `MalformedInput` (R200). -/
inductive Cause where
  /-- "incorrect padding" (R201). -/
  | length
  /-- "non-base32 digit found" (R202). -/
  | digit
deriving DecidableEq, Repr

/-- The error register `DEC.ERR` (R27, R81). The code 3 is never produced (U13), so it has no constructor. -/
inductive ErrCode where
  | none
  | malformed (c : Cause)
deriving DecidableEq, Repr

/-- A buffer of 8-bit code units indexed from 0 (R29, R50): the cells that hold a value, as (index, unit) pairs with strictly
rising indices. A cell that is not listed holds no value (R34, D27). -/
abbrev Memory := List Host.Cell

/-- The registers and buffers of ENC (R21, R29). `LENW` is taken infinite (notes/assumptions/3.md). -/
structure EncRegs where
  /-- `ENC.ST`. -/
  st   : Status
  /-- `ENC.LEN`. -/
  len  : Nat
  /-- `ENC.GRP`. -/
  grp  : Nat
  /-- `ENC.ACC`. -/
  acc  : GroupWord
  /-- `ENC.OLEN`. -/
  olen : Nat
  /-- `ENC.IN`. -/
  inp  : Memory
  /-- `ENC.OUT`. -/
  out  : Memory
deriving DecidableEq, Repr

/-- The registers and buffers of DEC (R22, R29). `LENW` is taken infinite (notes/assumptions/3.md). -/
structure DecRegs where
  /-- `DEC.ST`. -/
  st   : Status
  /-- `DEC.LEN`. -/
  len  : Nat
  /-- `DEC.GRP`. -/
  grp  : Nat
  /-- `DEC.ACC`. -/
  acc  : GroupWord
  /-- `DEC.OLEN`. -/
  olen : Nat
  /-- `DEC.ERR`. -/
  err  : ErrCode
  /-- `DEC.IN`. -/
  inp  : Memory
  /-- `DEC.OUT`. -/
  out  : Memory
deriving DecidableEq, Repr

/-- What one read of a port answered the host (R33), or what the adapter answered it (R191). -/
inductive Reply where
  /-- A read of `X.ST`, as its code. -/
  | st (x : Engine) (code : BitVec 2)
  /-- A read of `X.LEN`. -/
  | len (x : Engine) (n : Nat)
  /-- A read of `X.IN[i]`. -/
  | inp (x : Engine) (i : Nat) (v : Byte)
  /-- A read of `DEC.ERR`, as its code. -/
  | err (code : BitVec 2)
  /-- A read of `X.OLEN`. -/
  | olen (x : Engine) (n : Nat)
  /-- A read of `X.OUT[i]`. -/
  | out (x : Engine) (i : Nat) (v : Byte)
  /-- NORMALIZE failed: DEC is not started (R205, R206). -/
  | adapter (e : AdapterError)
deriving DecidableEq, Repr

/-- The four buffers as address spaces (R50). -/
inductive Space where
  | encIn
  | encOut
  | decIn
  | decOut
deriving DecidableEq, Repr

/-- The state: the block's (R20: the registers of R21 and R22 and the buffers of R29), and the model's own fields. -/
structure State where
  /-- Registers and buffers of ENC. -/
  enc     : EncRegs
  /-- Registers and buffers of DEC. -/
  dec     : DecRegs
  /-- The model's own: what the host does next, first action first (notes/assumptions/2.md). -/
  script  : List HostAct
  /-- The model's own: which agent moves next, first turn first (notes/assumptions/1.md). -/
  turns   : List Agent
  /-- The model's own: the argument of `Config.freeTurn` (notes/assumptions/1.md). -/
  tick    : Nat
  /-- The model's own: what the host's reads answered, newest first (notes/assumptions/2.md). -/
  replies : List Reply
deriving DecidableEq, Repr

/-- The block has no faults (spec/60_exceptions.md R216; spec/93_implementation_defined.md: "No `stuck` and no `fault`
treatment is used"), so no step raises one and the type has no constructor (notes/assumptions/11.md). -/
inductive Fault where
deriving DecidableEq, Repr

/-- Why a step is refused: the spec gives the action no meaning and asks for a refusal (R234). Each is SAFE: nothing can be
claimed of a run that contains it. -/
inductive Refusal where
  /-- An instruction that has no meaning yet (safe); raised by `exec` only, and by no arm of it now. -/
  | notModelled (mnemonic : String)
  /-- A write of `CMD = 0b11` (R238, U1); raised by the host action `writeCmd`. Safe. -/
  | reservedCommand
  /-- A read of `CMD` (R239); raised by the host action `readCmd`. Safe. -/
  | readOfCmd
  /-- START of an engine that is BUSY (R235, U12); raised by the meanings of ENC and DEC. Safe. -/
  | startWhileBusy
  /-- A host write of `X.IN` or `X.LEN` while `X` is BUSY (R236, U12). Safe. -/
  | writeWhileBusy
  /-- A host read of `X.OLEN`, `DEC.ERR`, `X.LEN` or `X.IN` while `X` is BUSY (R237, R60, U11). Safe. -/
  | readWhileBusy
  /-- A host read of `X.OUT[i]` unless `X.ST = DONE` and `i < X.OLEN` (R237, U11, U14). Safe. -/
  | resultNotThere
  /-- A read of a cell that holds no value (R34, R233, U10); raised by the GROUP steps and by host reads. Safe. -/
  | noValue
deriving DecidableEq, Repr

/-- What one step answers. -/
abbrev Outcome := Host.Outcome State Fault Refusal

/-- The machine right after reset (R34, R230): both engines IDLE, `DEC.ERR`, `LEN`, `GRP`, `OLEN` zero, no buffer cell holds a
value. The spec gives the accumulators no value: 0 is a DESIGN CHOICE (notes/assumptions/4.md). The model's own fields are
empty (notes/assumptions/1.md, 2.md). -/
def State.reset : State where
  enc     := { st := .idle, len := 0, grp := 0, acc := 0, olen := 0, inp := [], out := [] }
  dec     := { st := .idle, len := 0, grp := 0, acc := 0, olen := 0, err := .none, inp := [], out := [] }
  script  := []
  turns   := []
  tick    := 0
  replies := []

end Sys2Proof.Machine
end

