-- ==== Sys2Proof/Machine/Flags.lean ====
section
/-! DEFINITION. The status and error codes. The block has no arithmetic flag (spec/10_state.md R25): the two status fields and
`DEC.ERR` are all there is. -/

namespace Sys2Proof.Machine

/-- The code of a status (R80). -/
def Status.code : Status → BitVec 2
  | .idle  => 0
  | .busy  => 1
  | .done  => 2
  | .error => 3

/-- The code of `DEC.ERR` (R81). -/
def ErrCode.code : ErrCode → BitVec 2
  | .none             => 0
  | .malformed .length => 1
  | .malformed .digit  => 2

end Sys2Proof.Machine
end

