-- ==== Sys2Proof/Machine/Tables.lean ====
section
/-! DEFINITION. The Alphabet, the Forward table and the Reverse table (spec/40_tables.md). They are constants, valid from
reset, and no operation writes them (R30, R109, R231). -/

namespace Sys2Proof.Machine

/-- `ALPHABET[0]` to `ALPHABET[7]` (R100): `ybndrfg8`. -/
def alphabet0 : List Byte := [0x79, 0x62, 0x6E, 0x64, 0x72, 0x66, 0x67, 0x38]

/-- `ALPHABET[8]` to `ALPHABET[15]` (R100): `ejkmcpqx`. -/
def alphabet1 : List Byte := [0x65, 0x6A, 0x6B, 0x6D, 0x63, 0x70, 0x71, 0x78]

/-- `ALPHABET[16]` to `ALPHABET[23]` (R100): `ot1uwisz`. -/
def alphabet2 : List Byte := [0x6F, 0x74, 0x31, 0x75, 0x77, 0x69, 0x73, 0x7A]

/-- `ALPHABET[24]` to `ALPHABET[31]` (R100): `a345h769`. -/
def alphabet3 : List Byte := [0x61, 0x33, 0x34, 0x35, 0x68, 0x37, 0x36, 0x39]

/-- The Alphabet as a list, index 0 first (R100). -/
def alphabetList : List Byte := alphabet0 ++ alphabet1 ++ alphabet2 ++ alphabet3

/-- `ALPHABET[v]` (R100). -/
def alphabet (v : Val5) : Byte := alphabetList[v.toNat]'v.isLt

/-- The Forward table as R102 builds it: outer loop over the first symbol, inner over the second. -/
def fwdTable : List (Byte × Byte) := alphabetList.flatMap (fun a => alphabetList.map (fun b => (a, b)))

/-- `FWDLOOKUP(f)` (R103): the form that needs no stored table (R111). -/
def fwdLookup (f : Field10) : Byte × Byte := (alphabet (f.extractLsb' 5 5), alphabet (f.extractLsb' 0 5))

/-- `REV(c)` (R105, R106): the index of `c` in the Alphabet, or nothing when `c` is a foreign code unit. -/
def rev (c : Byte) : Option Val5 := (alphabetList.findIdx? (fun a => a == c)).map (BitVec.ofNat 5)

end Sys2Proof.Machine
end

