-- ==== Sys2Proof/Machine/Ops.lean ====
section
/-! DEFINITION. The shared operations over buffers and registers, and taking an error (`raise`). -/

namespace Sys2Proof.Machine

/-! ### One buffer -/

/-- What a cell that is not listed reads as: no value (spec/10_state.md R34, D27; notes/assumptions/10.md). -/
def Memory.unlisted : Option Byte := none

/-- The canonical form: strictly rising indices. -/
abbrev Memory.wf (m : Memory) : Prop := m.Pairwise (fun a b => a.1 < b.1)

/-- The unit at an index, or nothing where the cell holds no value (R50). -/
def Memory.read : Memory → Nat → Option Byte
  | [], _          => Memory.unlisted
  | (a, v) :: m, i => if i = a then some v else Memory.read m i

/-- Store a unit at an index (R50), in the canonical form. -/
def Memory.write : Memory → Nat → Byte → Memory
  | [], i, v          => [(i, v)]
  | (a, w) :: m, i, v =>
    if i < a then (i, v) :: (a, w) :: m
    else if i = a then (i, v) :: m
    else (a, w) :: Memory.write m i v

/-- Store consecutive units, the first at `base`. -/
def Memory.writeUnits : Memory → Nat → List Byte → Memory
  | m, _, []         => m
  | m, base, c :: cs => Memory.writeUnits (Memory.write m base c) (base + 1) cs

/-! ### The four buffers as address spaces -/

/-- A buffer by its name (R50). -/
def State.buffer (s : State) : Space → Memory
  | .encIn  => s.enc.inp
  | .encOut => s.enc.out
  | .decIn  => s.dec.inp
  | .decOut => s.dec.out

/-- Replace a buffer. -/
def State.setBuffer (s : State) (sp : Space) (m : Memory) : State :=
  match sp with
  | .encIn  => { s with enc := { s.enc with inp := m } }
  | .encOut => { s with enc := { s.enc with out := m } }
  | .decIn  => { s with dec := { s.dec with inp := m } }
  | .decOut => { s with dec := { s.dec with out := m } }

/-- `MemRead(space, i)` (R50): one code unit, or nothing where the cell holds no value. -/
def memRead (sp : Space) (i : Nat) (s : State) : Option Byte := (s.buffer sp).read i

/-- `MemWrite(space, i, v)` (R50): one code unit. -/
def memWrite (sp : Space) (i : Nat) (v : Byte) (s : State) : State := s.setBuffer sp ((s.buffer sp).write i v)

/-- `MemWrite` of consecutive units, the first at `base`. -/
def memWriteUnits (sp : Space) (base : Nat) (cs : List Byte) (s : State) : State :=
  s.setBuffer sp ((s.buffer sp).writeUnits base cs)

/-- The input buffer of an engine (R29). -/
def inSpace : Engine → Space
  | .enc => .encIn
  | .dec => .decIn

/-- The output buffer of an engine (R29). -/
def outSpace : Engine → Space
  | .enc => .encOut
  | .dec => .decOut

/-! ### Registers by engine -/

/-- `X.ST`. -/
def State.st (s : State) : Engine → Status
  | .enc => s.enc.st
  | .dec => s.dec.st

/-- `X.LEN`. -/
def State.len (s : State) : Engine → Nat
  | .enc => s.enc.len
  | .dec => s.dec.len

/-- `X.GRP`. -/
def State.grp (s : State) : Engine → Nat
  | .enc => s.enc.grp
  | .dec => s.dec.grp

/-- `X.OLEN`. -/
def State.olen (s : State) : Engine → Nat
  | .enc => s.enc.olen
  | .dec => s.dec.olen

/-- Write `X.LEN`. -/
def State.setLen (s : State) (x : Engine) (n : Nat) : State :=
  match x with
  | .enc => { s with enc := { s.enc with len := n } }
  | .dec => { s with dec := { s.dec with len := n } }

/-- `ACC <- (ACC << 5) + zext_40(v)` (R155) on a 40-bit accumulator. -/
def foldStep (acc : GroupWord) (v : Val5) : GroupWord := (acc <<< 5) + v.setWidth 40

/-- Fold one value into `DEC.ACC` (R155, R166): the shared operation of the 32 symbols. -/
def foldSymbol (v : Val5) (s : State) : Outcome :=
  .next { s with dec := { s.dec with acc := foldStep s.dec.acc v } }

/-! ### Errors -/

/-- `raise MalformedInput(cause)` in the step view (spec/60_exceptions.md R210): the cause is recorded, the result length is
zero, the status is ERROR, and nothing else changes. There is no handler, vector, saved address or mode. -/
def raiseMalformed (c : Cause) (s : State) : State :=
  { s with dec := { s.dec with err := .malformed c, olen := 0, st := .error } }

/-- What stands for a return from an error (R212: there is no such operation; the next DEC.START overwrites `DEC.ST` and
`DEC.ERR`): the good branch of DEC.START (spec/42_decoder.md R165). -/
def enterBusy (s : State) : State :=
  { s with dec := { s.dec with err := .none, st := .busy } }

/-- The host has read a port: the answer is kept (notes/assumptions/2.md). -/
def reply (r : Reply) (s : State) : State := { s with replies := r :: s.replies }

end Sys2Proof.Machine
end

