-- ==== Sys2Proof/Machine/Commands.lean ====
section
/-! DEFINITION. The meanings of the three commands (spec/30_encoding.md R79). -/

namespace Sys2Proof.Machine

/-- `NOP` (R79): "no engine starts and no state changes". -/
def execNop (s : State) : Outcome := .next s

/-- `ENC`, step ENC.START (spec/41_encoder.md R133). Enabled when `ENC.ST != BUSY`; a START while BUSY is refused (R235). -/
def execEnc (s : State) : Outcome :=
  if s.enc.st = .busy then .refused .startWhileBusy
  else .next { s with enc := { s.enc with grp := 0, olen := 0, st := .busy } }

/-- `DEC`, step DEC.START (spec/42_decoder.md R165): the length test is made here, before any unit is read (R158). Enabled when
`DEC.ST != BUSY`; a START while BUSY is refused (R235). -/
def execDec (s : State) : Outcome :=
  if s.dec.st = .busy then .refused .startWhileBusy
  else
    let t := { s with dec := { s.dec with grp := 0, olen := 0 } }
    if s.dec.len % 8 ≠ 0 then .next (raiseMalformed .length t) else .next (enterBusy t)

end Sys2Proof.Machine
end

