-- ==== Sys2Proof/Machine/Operands.lean ====
section
/-! DEFINITION. Operand assembly (spec/30_encoding.md R82): the group word, its fields and values, the padded read, the fold and
the unpack. Nothing is sign-extended. -/

namespace Sys2Proof.Machine

/-- `INB(i)` (spec/41_encoder.md R134): the input byte, or the padding byte `0x00` at and beyond `ENC.LEN`, which does not touch
the buffer. Nothing where the cell holds no value (R233). -/
def inb (s : State) (i : Nat) : Option Byte := if i < s.enc.len then memRead .encIn i s else some 0x00

/-- The five operand bytes of ENC.GROUP (R135). -/
def encOperands (s : State) (g : Nat) : Option (Byte × Byte × Byte × Byte × Byte) :=
  match inb s (5 * g), inb s (5 * g + 1), inb s (5 * g + 2), inb s (5 * g + 3), inb s (5 * g + 4) with
  | some b0, some b1, some b2, some b3, some b4 => some (b0, b1, b2, b3, b4)
  | _, _, _, _, _                               => none

/-- The eight input indices of quantum `g` (R153). -/
def quantumIndices (g : Nat) : List Nat := List.range' (8 * g) 8

/-- The eight operand units of DEC.GROUP: the step reads exactly eight (spec/20_memory.md R58). Nothing where one of the cells holds
no value (R233; notes/assumptions/13.md). -/
def decOperands (s : State) (g : Nat) : Option (List Byte) := (quantumIndices g).mapM (fun i => memRead .decIn i s)

/-- `PACK40` (R124, R70): big-endian. -/
def pack40 (b0 b1 b2 b3 b4 : Byte) : GroupWord :=
  (b0.setWidth 40 <<< 32) ||| (b1.setWidth 40 <<< 24) ||| (b2.setWidth 40 <<< 16) ||| (b3.setWidth 40 <<< 8) ||| b4.setWidth 40

/-- The field `F_j = W[39-10j : 30-10j]`, `j` from 0 to 3 (R71). -/
def field (w : GroupWord) (j : Nat) : Field10 := w.extractLsb' (30 - 10 * j) 10

/-- `SPLIT10` (R125). -/
def split10 (w : GroupWord) : Field10 × Field10 × Field10 × Field10 := (field w 0, field w 1, field w 2, field w 3)

/-- The value `V_k = W[39-5k : 35-5k]`, `k` from 0 to 7 (R72). -/
def valueAt (w : GroupWord) (k : Nat) : Val5 := w.extractLsb' (35 - 5 * k) 5

/-- The eight symbols of a group word, in output order: the four Forward lookups in order (R126, R135). -/
def quantumOf (w : GroupWord) : List Byte :=
  let (f0, f1, f2, f3) := split10 w
  [(fwdLookup f0).1, (fwdLookup f0).2, (fwdLookup f1).1, (fwdLookup f1).2,
   (fwdLookup f2).1, (fwdLookup f2).2, (fwdLookup f3).1, (fwdLookup f3).2]

/-- `FOLD40` (R155): the accumulator starts at 0 (D28) and takes the values in order. -/
def fold40 (vs : List Val5) : GroupWord := vs.foldl foldStep 0

/-- `UNPACK40` (R159): five big-endian bytes. -/
def unpack40 (w : GroupWord) : List Byte :=
  [w.extractLsb' 32 8, w.extractLsb' 24 8, w.extractLsb' 16 8, w.extractLsb' 8 8, w.extractLsb' 0 8]

end Sys2Proof.Machine
end

