-- ==== Sys2Proof/Machine/Symbols.lean ====
section
/-! DEFINITION. The meanings of the 32 symbols (rows of format SYM). A symbol is met by DEC.GROUP as a code unit of `DEC.IN`;
its effect is one turn of the loop of spec/42_decoder.md R166, `acc <- (acc << 5) + zext_40(v)` (R154, R155), with `DEC.ACC`
as the accumulator (R22, R23; notes/assumptions/5.md, 6.md). -/

namespace Sys2Proof.Machine

/-- The symbol `y`, value 0 (R100). -/
def execSymY (s : State) : Outcome := foldSymbol 0 s

/-- The symbol `b`, value 1 (R100). -/
def execSymB (s : State) : Outcome := foldSymbol 1 s

/-- The symbol `n`, value 2 (R100). -/
def execSymN (s : State) : Outcome := foldSymbol 2 s

/-- The symbol `d`, value 3 (R100). -/
def execSymD (s : State) : Outcome := foldSymbol 3 s

/-- The symbol `r`, value 4 (R100). -/
def execSymR (s : State) : Outcome := foldSymbol 4 s

/-- The symbol `f`, value 5 (R100). -/
def execSymF (s : State) : Outcome := foldSymbol 5 s

/-- The symbol `g`, value 6 (R100). -/
def execSymG (s : State) : Outcome := foldSymbol 6 s

/-- The symbol `8`, value 7 (R100). -/
def execSym8 (s : State) : Outcome := foldSymbol 7 s

/-- The symbol `e`, value 8 (R100). -/
def execSymE (s : State) : Outcome := foldSymbol 8 s

/-- The symbol `j`, value 9 (R100). -/
def execSymJ (s : State) : Outcome := foldSymbol 9 s

/-- The symbol `k`, value 10 (R100). -/
def execSymK (s : State) : Outcome := foldSymbol 10 s

/-- The symbol `m`, value 11 (R100). -/
def execSymM (s : State) : Outcome := foldSymbol 11 s

/-- The symbol `c`, value 12 (R100). -/
def execSymC (s : State) : Outcome := foldSymbol 12 s

/-- The symbol `p`, value 13 (R100). -/
def execSymP (s : State) : Outcome := foldSymbol 13 s

/-- The symbol `q`, value 14 (R100). -/
def execSymQ (s : State) : Outcome := foldSymbol 14 s

/-- The symbol `x`, value 15 (R100). -/
def execSymX (s : State) : Outcome := foldSymbol 15 s

/-- The symbol `o`, value 16 (R100). -/
def execSymO (s : State) : Outcome := foldSymbol 16 s

/-- The symbol `t`, value 17 (R100). -/
def execSymT (s : State) : Outcome := foldSymbol 17 s

/-- The symbol `1`, value 18 (R100). -/
def execSym1 (s : State) : Outcome := foldSymbol 18 s

/-- The symbol `u`, value 19 (R100). -/
def execSymU (s : State) : Outcome := foldSymbol 19 s

/-- The symbol `w`, value 20 (R100). -/
def execSymW (s : State) : Outcome := foldSymbol 20 s

/-- The symbol `i`, value 21 (R100). -/
def execSymI (s : State) : Outcome := foldSymbol 21 s

/-- The symbol `s`, value 22 (R100). -/
def execSymS (s : State) : Outcome := foldSymbol 22 s

/-- The symbol `z`, value 23 (R100). -/
def execSymZ (s : State) : Outcome := foldSymbol 23 s

/-- The symbol `a`, value 24 (R100). -/
def execSymA (s : State) : Outcome := foldSymbol 24 s

/-- The symbol `3`, value 25 (R100). -/
def execSym3 (s : State) : Outcome := foldSymbol 25 s

/-- The symbol `4`, value 26 (R100). -/
def execSym4 (s : State) : Outcome := foldSymbol 26 s

/-- The symbol `5`, value 27 (R100). -/
def execSym5 (s : State) : Outcome := foldSymbol 27 s

/-- The symbol `h`, value 28 (R100). -/
def execSymH (s : State) : Outcome := foldSymbol 28 s

/-- The symbol `7`, value 29 (R100). -/
def execSym7 (s : State) : Outcome := foldSymbol 29 s

/-- The symbol `6`, value 30 (R100). -/
def execSym6 (s : State) : Outcome := foldSymbol 30 s

/-- The symbol `9`, value 31 (R100). -/
def execSym9 (s : State) : Outcome := foldSymbol 31 s

end Sys2Proof.Machine
end

