-- ==== Sys2Proof/Machine/Dispatch.lean ====
section
/-! DEFINITION. One arm per constructor of Instr, one meaning per arm. -/

namespace Sys2Proof.Machine

def exec (i : Instr) (s : State) : Host.Outcome State Fault Refusal :=
  match i with
  | .nop => Sys2Proof.Machine.execNop s
  | .enc => Sys2Proof.Machine.execEnc s
  | .dec => Sys2Proof.Machine.execDec s
  | .symY => Sys2Proof.Machine.execSymY s
  | .symB => Sys2Proof.Machine.execSymB s
  | .symN => Sys2Proof.Machine.execSymN s
  | .symD => Sys2Proof.Machine.execSymD s
  | .symR => Sys2Proof.Machine.execSymR s
  | .symF => Sys2Proof.Machine.execSymF s
  | .symG => Sys2Proof.Machine.execSymG s
  | .sym8 => Sys2Proof.Machine.execSym8 s
  | .symE => Sys2Proof.Machine.execSymE s
  | .symJ => Sys2Proof.Machine.execSymJ s
  | .symK => Sys2Proof.Machine.execSymK s
  | .symM => Sys2Proof.Machine.execSymM s
  | .symC => Sys2Proof.Machine.execSymC s
  | .symP => Sys2Proof.Machine.execSymP s
  | .symQ => Sys2Proof.Machine.execSymQ s
  | .symX => Sys2Proof.Machine.execSymX s
  | .symO => Sys2Proof.Machine.execSymO s
  | .symT => Sys2Proof.Machine.execSymT s
  | .sym1 => Sys2Proof.Machine.execSym1 s
  | .symU => Sys2Proof.Machine.execSymU s
  | .symW => Sys2Proof.Machine.execSymW s
  | .symI => Sys2Proof.Machine.execSymI s
  | .symS => Sys2Proof.Machine.execSymS s
  | .symZ => Sys2Proof.Machine.execSymZ s
  | .symA => Sys2Proof.Machine.execSymA s
  | .sym3 => Sys2Proof.Machine.execSym3 s
  | .sym4 => Sys2Proof.Machine.execSym4 s
  | .sym5 => Sys2Proof.Machine.execSym5 s
  | .symH => Sys2Proof.Machine.execSymH s
  | .sym7 => Sys2Proof.Machine.execSym7 s
  | .sym6 => Sys2Proof.Machine.execSym6 s
  | .sym9 => Sys2Proof.Machine.execSym9 s

end Sys2Proof.Machine
end

