-- ==== Sys2Proof/Machine/Engines.lean ====
section
/-! DEFINITION. The engine steps: ENC.GROUP, ENC.FINISH (spec/41_encoder.md) and DEC.GROUP, DEC.FINISH (spec/42_decoder.md). Each is
one atomic step (R61, R244). -/

namespace Sys2Proof.Machine

/-- ENC.GROUP (R135), without its guard: pack the five operand bytes, write the eight symbols, advance. Refused where an input
cell holds no value (R233). -/
def encGroup (s : State) : Outcome :=
  match encOperands s s.enc.grp with
  | none => .refused .noValue
  | some (b0, b1, b2, b3, b4) =>
    let w := pack40 b0 b1 b2 b3 b4
    let t := memWriteUnits .encOut (8 * s.enc.grp) (quantumOf w) s
    .next { t with enc := { t.enc with acc := w, grp := s.enc.grp + 1 } }

/-- ENC.FINISH (R136), without its guard. -/
def encFinish (s : State) : State :=
  { s with enc := { s.enc with olen := 8 * s.enc.grp, st := .done } }

/-- ENC's turn: its one enabled step (R132), or nothing when it is not BUSY (R222). -/
def encTurn (s : State) : Outcome :=
  if s.enc.st = .busy then
    if 5 * s.enc.grp < s.enc.len then encGroup s else .next (encFinish s)
  else .next s

/-- The end of a DEC.GROUP whose eight units were all symbols (R166): write the five bytes of `DEC.ACC`, advance. -/
def decCommit (s : State) : State :=
  let t := memWriteUnits .decOut (5 * s.dec.grp) (unpack40 s.dec.acc) s
  { t with dec := { t.dec with grp := s.dec.grp + 1 } }

/-- The loop of DEC.GROUP (R166) over the units still to look up. `s` is the state before the step, to which a failing step
returns but for the error (R167); `t` is the state so far. Each unit is looked up, and the symbol it is decoded to is executed. -/
def decLoop (s : State) : List Byte → State → Outcome
  | [], t      => .next (decCommit t)
  | c :: cs, t =>
    match decodeUnit c with
    | .error _ => .next (raiseMalformed .digit s)
    | .ok ins  =>
      match exec ins t with
      | .next t'   => decLoop s cs t'
      | .fault f   => .fault f
      | .refused r => .refused r

/-- DEC.GROUP (R166), without its guard. Its eight units are read first (R58), so that no order of the reads can be observed; the
step is refused where one of the cells holds no value (R233). The accumulator starts at 0 (R155). -/
def decGroup (s : State) : Outcome :=
  match decOperands s s.dec.grp with
  | none    => .refused .noValue
  | some cs => decLoop s cs { s with dec := { s.dec with acc := 0 } }

/-- DEC.FINISH (R168), without its guard. -/
def decFinish (s : State) : State :=
  { s with dec := { s.dec with olen := 5 * s.dec.grp, st := .done } }

/-- DEC's turn: its one enabled step (R164), or nothing when it is not BUSY (R222). -/
def decTurn (s : State) : Outcome :=
  if s.dec.st = .busy then
    if 8 * s.dec.grp < s.dec.len then decGroup s else .next (decFinish s)
  else .next s

end Sys2Proof.Machine
end

