-- ==== Sys2Proof/Machine/HostPort.lean ====
section
/-! DEFINITION. The host agent: every port of spec/10_state.md R33, and the host notation of spec/30_encoding.md R89. What the
rules give no meaning is refused by name (spec/70_reset_and_hazards.md R234 to R239). -/

namespace Sys2Proof.Machine

/-- `LOAD X, lit` (R89): the units of the literal to `X.IN[0 ..]` and its length to `X.LEN`. -/
def load (x : Engine) (lit : List Byte) : List HostAct :=
  lit.zipIdx.map (fun p => .writeIn x p.2 p.1) ++ [.writeLen x lit.length]

/-- The command word that starts an engine (R79). -/
def startWord : Engine → CmdWord
  | .enc => 0b01
  | .dec => 0b10

/-- `START X` (R89). -/
def start (x : Engine) : List HostAct := [.writeCmd (startWord x)]

/-- The pseudo-instruction `X lit` (R89): `LOAD X, lit; START X; WAIT X; READ X`. -/
def operate (x : Engine) (lit : List Byte) : List HostAct := load x lit ++ start x ++ [.wait x, .read x]

/-- The reads of `READ X` after that of `X.ST` (R89): `X.OLEN`, `DEC.ERR` when X is DEC, and the result when DONE. -/
def readRest (s : State) (x : Engine) : List HostAct :=
  [.readOlen x] ++ (if x = .dec then [.readErr] else []) ++
    (if s.st x = .done then (List.range (s.olen x)).map (.readOut x) else [])

/-- Reset (R230): every register of the block at its reset value, no buffer cell holds a value. The model's own fields are not
the block's and stay (notes/assumptions/12.md). -/
def execReset (s : State) : State := { s with enc := State.reset.enc, dec := State.reset.dec }

/-- One host action. `s` is the state with the action already taken off `script`. -/
def hostAct (a : HostAct) (s : State) : Outcome :=
  match a with
  | .rst => .next (execReset s)
  | .writeCmd w =>
    match decodeCmd w with
    | .ok i    => exec i s
    | .error _ => .refused .reservedCommand
  | .readCmd => .refused .readOfCmd
  | .writeLen x n => if s.st x = .busy then .refused .writeWhileBusy else .next (s.setLen x n)
  | .readLen x => if s.st x = .busy then .refused .readWhileBusy else .next (reply (.len x (s.len x)) s)
  | .writeIn x i v => if s.st x = .busy then .refused .writeWhileBusy else .next (memWrite (inSpace x) i v s)
  | .readIn x i =>
    if s.st x = .busy then .refused .readWhileBusy
    else
      match memRead (inSpace x) i s with
      | some v => .next (reply (.inp x i v) s)
      | none   => .refused .noValue
  | .readSt x => .next (reply (.st x (s.st x).code) s)
  | .readErr => if s.dec.st = .busy then .refused .readWhileBusy else .next (reply (.err s.dec.err.code) s)
  | .readOlen x => if s.st x = .busy then .refused .readWhileBusy else .next (reply (.olen x (s.olen x)) s)
  | .readOut x i =>
    if s.st x = .done ∧ i < s.olen x then
      match memRead (outSpace x) i s with
      | some v => .next (reply (.out x i v) s)
      | none   => .refused .noValue
    else .refused .resultNotThere
  | .wait x =>
    let t := reply (.st x (s.st x).code) s
    .next (if s.st x = .busy then { t with script := .wait x :: t.script } else t)
  | .read x =>
    let t := reply (.st x (s.st x).code) s
    .next { t with script := readRest s x ++ t.script }
  | .submit v =>
    match normalizeValue v with
    | .ok us   => .next { s with script := operate .dec us ++ s.script }
    | .error e => .next (reply (.adapter e) s)

/-- The host's turn: its next action, or nothing when it has none. -/
def hostTurn (s : State) : Outcome :=
  match s.script with
  | []        => .next s
  | a :: rest => hostAct a { s with script := rest }

end Sys2Proof.Machine
end

