-- ==== Sys2Proof/Machine/Schedule.lean ====
section
/-! DEFINITION. Which agent moves next (spec/10_state.md R20), and how one encoded word is put where the next step fetches it. -/

namespace Sys2Proof.Machine

/-- The agent that moves and the state with its turn taken: the first of `turns`, or where that is empty the free value
`Config.freeTurn` (notes/assumptions/1.md). -/
def takeTurn (s : State) : Agent × State :=
  match s.turns with
  | a :: rest => (a, { s with turns := rest })
  | []        => (Config.freeTurn s.tick, { s with tick := s.tick + 1 })

/-- One turn of an agent. -/
def agentTurn (a : Agent) (s : State) : Outcome :=
  match a with
  | .host => hostTurn s
  | .enc  => encTurn s
  | .dec  => decTurn s

/-- A command word as the host's next action, and the host next to move (notes/assumptions/8.md). -/
def placeCommand (w : CmdWord) (s : State) : State :=
  { s with script := .writeCmd w :: s.script, turns := .host :: s.turns }

/-- A code unit as the quantum DEC's next step reads: eight times the unit, DEC BUSY at that quantum and next to move
(notes/assumptions/9.md). -/
def placeUnit (c : Byte) (s : State) : State :=
  let t := memWriteUnits .decIn (8 * s.dec.grp) (List.replicate 8 c) s
  { t with dec := { t.dec with st := .busy, len := 8 * s.dec.grp + 8 }, turns := .dec :: s.turns }

/-- Put a word of the opcode table, as spec/opcode_table.json numbers its bits, where the next step fetches it: 0 to 3 is a
command word, any other value a code unit (notes/assumptions/7.md). -/
def placeWord (w : Nat) (s : State) : State :=
  if w < 4 then placeCommand (BitVec.ofNat 2 w) s else placeUnit (BitVec.ofNat 8 w) s

end Sys2Proof.Machine
end

