-- ==== Sys2Proof/Machine/Step.lean ====
section
/-! DEFINITION. One step of the machine, and where it fetches. -/

namespace Sys2Proof.Machine

/-- One step: the agent whose turn it is takes its step (R20, R61). -/
def step (s : State) : Host.Outcome State Fault Refusal :=
  let (a, t) := takeTurn s
  agentTurn a t

/-- The state with a word of the opcode table put where the next step fetches it (`nbits` says nothing more: every word of the
table is one command word or one code unit). -/
def State.withFetchWord (s : State) (_nbits w : Nat) : State := placeWord w s

end Sys2Proof.Machine
end

