-- ==== Sys2Proof/Machine/FunctionView.lean ====
section
/-! DEFINITION. The function view (spec/00_scope.md R5), which is normative: `Encode`, `Decode`, and the document's `decode` as a
composition with the host adapter. The step view must compute these (R137, R170). -/

namespace Sys2Proof.Machine

/-- `PAD5(b)` (R122). -/
def pad5 (b : List Byte) : List Byte := b ++ List.replicate ((5 - b.length % 5) % 5) 0x00

/-- `ENCGROUP` (R126). -/
def encodeGroup (b0 b1 b2 b3 b4 : Byte) : List Byte := quantumOf (pack40 b0 b1 b2 b3 b4)

/-- The groups of a padded sequence, encoded in order (R123, R127). -/
def encodeGroups : List Byte → List Byte
  | b0 :: b1 :: b2 :: b3 :: b4 :: rest => encodeGroup b0 b1 b2 b3 b4 ++ encodeGroups rest
  | _ => []

/-- `Encode(b)` (R131). -/
def encodeBytes (b : List Byte) : List Byte := encodeGroups (pad5 b)

/-- `DECGROUP` (R162) on the eight code units of a quantum. -/
def decodeGroup (cs : List Byte) : Except Cause (List Byte) :=
  match cs.mapM rev with
  | some vs => .ok (unpack40 (fold40 vs))
  | none    => .error .digit

/-- The quanta of an input, decoded in order (R153); the first that fails ends the decode with no bytes (R156, R157). -/
def decodeGroups : List Byte → Except Cause (List Byte)
  | c0 :: c1 :: c2 :: c3 :: c4 :: c5 :: c6 :: c7 :: rest =>
    match decodeGroup [c0, c1, c2, c3, c4, c5, c6, c7] with
    | .error e => .error e
    | .ok x    =>
      match decodeGroups rest with
      | .error e => .error e
      | .ok y    => .ok (x ++ y)
  | _ => .ok []

/-- `Decode(s)` (R163): `Err(MalformedInput, cause)` is `.error cause`. The length test comes first (R158). -/
def decodeText (s : List Byte) : Except Cause (List Byte) :=
  if s.length % 8 ≠ 0 then .error .length else decodeGroups s

/-- The document's whole error taxonomy (R196, R200). -/
inductive CodecError where
  | malformedInput (c : Cause)
  | adapter (e : AdapterError)
deriving DecidableEq, Repr

/-- The document's `decode(x)` (R196): NORMALIZE comes before every test of the decoder (R197). -/
def decodeValue (x : HostValue) : Except CodecError (List Byte) :=
  match normalizeValue x with
  | .error e => .error (.adapter e)
  | .ok s    =>
    match decodeText s with
    | .error c => .error (.malformedInput c)
    | .ok b    => .ok b

end Sys2Proof.Machine
end

