-- ==== Sys2Proof/Safety.lean ====
section
/-! DEFINITION. What a run is and what a good state is, in the terms the statements use. -/

namespace Sys2Proof.Machine

/-- `k` steps, stopping at the first refusal (structural, over the model's own `step`). -/
def steps : Nat → State → Outcome
  | 0, s     => .next s
  | k + 1, s =>
    match step s with
    | .next t    => steps k t
    | .fault f   => .fault f
    | .refused r => .refused r

/-- `k` turns of one agent, and of no other. -/
def turnsOf (a : Agent) : Nat → State → Outcome
  | 0, s     => .next s
  | k + 1, s =>
    match agentTurn a s with
    | .next t    => turnsOf a k t
    | .fault f   => .fault f
    | .refused r => .refused r

/-- A list of instructions executed in order. -/
def execAll : List Instr → State → Outcome
  | [], s      => .next s
  | i :: is, s =>
    match exec i s with
    | .next t    => execAll is t
    | .fault f   => .fault f
    | .refused r => .refused r

/-- The next step is the host's action `a`. -/
abbrev HostDoes (a : HostAct) (s : State) : Prop := (takeTurn s).1 = .host ∧ s.script.head? = some a

/-- The next step is ENC.START (R133), ENC.GROUP (R135), ENC.FINISH (R136). -/
abbrev EncStarts (s : State) : Prop := HostDoes (.writeCmd 0b01) s ∧ s.enc.st ≠ .busy
abbrev EncGroups (s : State) : Prop := (takeTurn s).1 = .enc ∧ s.enc.st = .busy ∧ 5 * s.enc.grp < s.enc.len
abbrev EncFinishes (s : State) : Prop := (takeTurn s).1 = .enc ∧ s.enc.st = .busy ∧ s.enc.len ≤ 5 * s.enc.grp

/-- The next step is DEC.START (R165), DEC.GROUP (R166), DEC.FINISH (R168). -/
abbrev DecStarts (s : State) : Prop := HostDoes (.writeCmd 0b10) s ∧ s.dec.st ≠ .busy
abbrev DecGroups (s : State) : Prop := (takeTurn s).1 = .dec ∧ s.dec.st = .busy ∧ 8 * s.dec.grp < s.dec.len
abbrev DecFinishes (s : State) : Prop := (takeTurn s).1 = .dec ∧ s.dec.st = .busy ∧ s.dec.len ≤ 8 * s.dec.grp

/-- The input of a running or coming operation: the host has written `b` to `X.IN[0 ..]` and its length to `X.LEN` (R137, R170). -/
def InputIs (x : Engine) (b : List Byte) (s : State) : Prop :=
  s.len x = b.length ∧ ∀ i, i < b.length → memRead (inSpace x) i s = b[i]?

/-- The result a host may read (R29): the engine is DONE and `X.OUT[0 .. X.OLEN-1]` is `r`. -/
def ResultIs (x : Engine) (r : List Byte) (s : State) : Prop :=
  s.st x = .done ∧ s.olen x = r.length ∧ ∀ i, i < r.length → memRead (outSpace x) i s = r[i]?

/-- A host action that leaves the registers and buffers of engine `x` as they are (the premise of R137 and R170 that the host
"left ENC's registers and buffers alone"). -/
def HostAct.leavesAlone (x : Engine) : HostAct → Bool
  | .rst => false
  | .writeCmd w => w != startWord x
  | .readCmd | .readErr => true
  | .writeLen y _ | .writeIn y _ _ => y != x
  | .readLen _ | .readIn _ _ | .readSt _ | .readOlen _ | .readOut _ _ | .wait _ | .read _ => true
  | .submit _ => x != .dec

/-- Every action the host still has to do leaves `x` alone. -/
abbrev LeftAlone (x : Engine) (s : State) : Prop := ∀ a ∈ s.script, HostAct.leavesAlone x a = true

/-- The good states of ENC. -/
structure EncInv (e : EncRegs) : Prop where
  /-- The buffers are in canonical form. -/
  inpWf     : Memory.wf e.inp
  outWf     : Memory.wf e.out
  /-- `ENC.ST` is never ERROR (R25, R80, R204). -/
  notError  : e.st ≠ .error
  /-- IDLE: no operation has run since reset (R25, R34). -/
  idleGrp   : e.st = .idle → e.grp = 0
  /-- `ENC.OLEN` is 0 unless DONE (R133, R34). -/
  olenZero  : e.st ≠ .done → e.olen = 0
  /-- DONE: the result is whole quanta (R136). -/
  olenDone  : e.st = .done → e.olen = 8 * e.grp
  /-- BUSY: no group beyond the last one has been taken (R24, R136). -/
  busyGrp   : e.st = .busy → 5 * e.grp < e.len + 5
  /-- Every output cell of a group already encoded holds a symbol (R130, R135). -/
  outSymbol : e.st = .busy ∨ e.st = .done → ∀ i, i < 8 * e.grp → ∃ v, e.out.read i = some (alphabet v)

/-- The good states of DEC. -/
structure DecInv (d : DecRegs) : Prop where
  /-- The buffers are in canonical form. -/
  inpWf    : Memory.wf d.inp
  outWf    : Memory.wf d.out
  /-- `DEC.ERR` is nonzero exactly when `DEC.ST = ERROR` (R27). -/
  errIff   : d.err ≠ .none ↔ d.st = .error
  /-- IDLE: no operation has run since reset (R25, R34). -/
  idleGrp  : d.st = .idle → d.grp = 0
  /-- `DEC.OLEN` is 0 unless DONE (R22). -/
  olenZero : d.st ≠ .done → d.olen = 0
  /-- DONE: the result is whole groups (R168). -/
  olenDone : d.st = .done → d.olen = 5 * d.grp
  /-- BUSY: the length is a multiple of 8 (R166), and no quantum beyond the last one has been taken (R24). -/
  busyLen  : d.st = .busy → d.len % 8 = 0 ∧ 8 * d.grp ≤ d.len
  /-- Every output cell of a quantum already decoded holds a byte (R166). -/
  outSome  : d.st = .busy ∨ d.st = .done → ∀ i, i < 5 * d.grp → (d.out.read i).isSome = true

/-- The good states of the machine: what every step keeps. -/
structure GoodState (s : State) : Prop where
  enc : EncInv s.enc
  dec : DecInv s.dec

/-- Every register fits the width, and every buffer cell the capacity, that a finite `LENW` gives it (R6, R21, R22, R24, R29). -/
structure Fits (lenw : Nat) (s : State) : Prop where
  encLen  : s.enc.len ≤ Config.maxIn lenw
  decLen  : s.dec.len ≤ Config.maxIn lenw
  encGrp  : s.enc.grp ≤ (Config.maxIn lenw + 4) / 5
  decGrp  : s.dec.grp ≤ Config.maxIn lenw / 8
  encOlen : s.enc.olen ≤ Config.encOutCap lenw
  decOlen : s.dec.olen ≤ Config.decOutCap lenw
  encIn   : ∀ c ∈ s.enc.inp, c.1 < Config.maxIn lenw
  decIn   : ∀ c ∈ s.dec.inp, c.1 < Config.maxIn lenw
  encOut  : ∀ c ∈ s.enc.out, c.1 < Config.encOutCap lenw
  decOut  : ∀ c ∈ s.dec.out, c.1 < Config.decOutCap lenw

/-- Every action the host still has to do is well formed for a given `LENW` (spec/10_state.md R28: every length up to `MAX_IN` is
legal). -/
abbrev ScriptWf (lenw : Nat) (s : State) : Prop := ∀ a ∈ s.script, HostAct.wf lenw a = true

end Sys2Proof.Machine
end

