-- ==== Sys2Proof/Certificates/Slice0/Obligations.lean ====
section
/-! DEFINITION. The statements about the model. Each docstring names the rules of spec/ it formalises; OBLIGATIONS.json says the
same of each. -/

open Sys2Proof Sys2Proof.Machine

/-! ### The machine: reset, fetch, the host's port -/

/-- The values R34 states for reset: both engines IDLE, no error, lengths and counters zero, no buffer cell holds a value. The
accumulators are left out: their value at reset is the model's own choice (notes/assumptions/4.md). -/
def Obligations.ResetLeavesTheBlockIdle : Prop :=
  State.reset.enc.st = .idle ∧ State.reset.dec.st = .idle ∧ State.reset.dec.err = .none ∧
  State.reset.enc.olen = 0 ∧ State.reset.dec.olen = 0 ∧ State.reset.enc.len = 0 ∧ State.reset.dec.len = 0 ∧
  State.reset.enc.grp = 0 ∧ State.reset.dec.grp = 0 ∧ ∀ sp i, memRead sp i State.reset = none

/-- The state after reset is a good state: the invariant `GoodState` of Safety.lean holds there. -/
def Obligations.ResetIsAGoodState : Prop := GoodState State.reset

/-- R230: asserting `rst`, in whatever state, puts the registers of both engines at their reset values, leaves no cell of a buffer
with a value, and so abandons any operation. The accumulators, which become unspecified, are left out. That the host's script and
the other fields of the model's own stay is the model's choice (notes/assumptions/12.md). -/
def Obligations.RstAbandonsEveryOperation : Prop :=
  ∀ s u rest, takeTurn s = (.host, u) → s.script = .rst :: rest →
    ∃ t, step s = .next t ∧ t.enc.st = .idle ∧ t.dec.st = .idle ∧ t.dec.err = .none ∧ t.enc.olen = 0 ∧ t.dec.olen = 0 ∧
      t.enc.len = 0 ∧ t.dec.len = 0 ∧ t.enc.grp = 0 ∧ t.dec.grp = 0 ∧ (∀ sp i, memRead sp i t = none) ∧ t.script = rest ∧ t.turns = u.turns ∧ t.tick = u.tick ∧ t.replies = s.replies

/-- R79: the command map, all four words. -/
def Obligations.CommandMap : Prop :=
  ∀ s, hostAct (.writeCmd 0b01) s = exec .enc s ∧ hostAct (.writeCmd 0b10) s = exec .dec s ∧
    hostAct (.writeCmd 0b00) s = .next s ∧ hostAct (.writeCmd 0b11) s = .refused .reservedCommand

/-- A step runs the decoded command: when it is the host's turn and its next action writes a command word that decodes to `i`, the
step is `exec i` of the state with the turn taken and the action done. (The turn and the script are the model's own fields,
notes/assumptions/1.md and 2.md.) -/
def Obligations.StepRunsTheCommandWritten : Prop :=
  ∀ s u w rest i, takeTurn s = (.host, u) → s.script = .writeCmd w :: rest → decodeCmd w = .ok i →
    step s = exec i { u with script := rest }

/-- A step runs the decoded symbols: when it is DEC's turn and the eight units of its quantum decode to `is`, the step is the
execution of `is` in order from accumulator 0, and then the quantum's bytes are written. That DEC.GROUP executes the eight symbols as
instructions, on `DEC.ACC` as the accumulator of R166's loop, is the model's own reading (notes/assumptions/6.md and 5.md). -/
def Obligations.StepRunsTheSymbolsOfAQuantum : Prop :=
  ∀ s u (is : List Instr), takeTurn s = (.dec, u) → s.dec.st = .busy → 8 * s.dec.grp < s.dec.len → is.length = 8 →
    (∀ k, k < 8 → ∃ c i, memRead .decIn (8 * s.dec.grp + k) s = some c ∧ is[k]? = some i ∧ decodeUnit c = .ok i) →
    ∃ t, execAll is { u with dec := { u.dec with acc := 0 } } = .next t ∧ step s = .next (decCommit t)

/-- A word of the opcode table put where the machine fetches is what the next step runs: a command alone, a symbol as the eight
units of a quantum (notes/assumptions/8.md, 9.md). -/
def Obligations.FetchWordRunsNext : Prop :=
  ∀ s nbits w i, decodeTableWord nbits w = some i →
    (i.symValue = none → step (s.withFetchWord nbits w) = exec i s) ∧
    (i.symValue ≠ none → ∃ t,
      execAll (List.replicate 8 i) { placeUnit (encode i) s with
        turns := s.turns, dec := { (placeUnit (encode i) s).dec with acc := 0 } } = .next t ∧
      step (s.withFetchWord nbits w) = .next (decCommit t))

/-- R238, R239: the reserved command word and a read of `CMD` are refused, in every state. -/
def Obligations.ReservedCommandAndReadOfCmdAreRefused : Prop :=
  ∀ s u rest, takeTurn s = (.host, u) →
    (s.script = .writeCmd 0b11 :: rest → step s = .refused .reservedCommand) ∧
    (s.script = .readCmd :: rest → step s = .refused .readOfCmd)

/-- Some words written out from the tables of R79 and R100 decode to the instructions they stand for, and the reserved word and
two foreign units decode to nothing. -/
def Obligations.SomeWordsDecode : Prop :=
  decodeCmd 0b00 = .ok .nop ∧ decodeCmd 0b01 = .ok .enc ∧ decodeCmd 0b10 = .ok .dec ∧ decodeCmd 0b11 = .error .reservedCommand ∧
  decodeUnit 0b01111001 = .ok .symY ∧ decodeUnit 0b00110001 = .ok .sym1 ∧ decodeUnit 0b01101111 = .ok .symO ∧
  decodeUnit 0b00111001 = .ok .sym9 ∧ decodeUnit 0b01011001 = .error .foreignUnit ∧ decodeUnit 0b00100001 = .error .foreignUnit

/-- Decoding a list of encoded instructions gives the list back, and every list of bytes that decodes is the encoding of what it
decodes to: no bit of an encoding is dropped and each word has one meaning (R79, R87, R100; the byte that holds a command word is
the model's choice, notes/assumptions/7.md). -/
def Obligations.DecodeAndEncodeAgree : Prop :=
  (∀ is : List Instr, decodeAll (encodeAll is) = .ok is) ∧ (∀ bs is, decodeAll bs = .ok is → encodeAll is = bs)

/-! ### The instructions -/

/-- `NOP` completes in every state and changes nothing (R79). -/
def Obligations.NopChangesNothing : Prop := ∀ s, exec .nop s = .next s

/-- R133: ENC.START completes whenever ENC is not BUSY, sets `ENC.GRP` and `ENC.OLEN` to 0 and `ENC.ST` to BUSY, and changes nothing
else; with `ENC.LEN = 0` the next ENC step is ENC.FINISH; while BUSY it is refused. -/
def Obligations.EncStartsTheEncoder : Prop :=
  ∀ s, (s.enc.st ≠ .busy →
      exec .enc s = .next { s with enc := { s.enc with grp := 0, olen := 0, st := .busy } } ∧
      (s.enc.len = 0 → encTurn { s with enc := { s.enc with grp := 0, olen := 0, st := .busy } } =
        .next { s with enc := { s.enc with grp := 0, olen := 0, st := .done } })) ∧
    (s.enc.st = .busy → exec .enc s = .refused .startWhileBusy)

/-- R165: DEC.START completes whenever DEC is not BUSY. With a length that is a multiple of 8 it enters BUSY with no error; with
any other length it raises LENGTH in this very step, and DEC then takes no step. Nothing else changes. With `DEC.LEN = 0` the next
DEC step is DEC.FINISH; while BUSY it is refused. -/
def Obligations.DecStartsTheDecoder : Prop :=
  ∀ s, (s.dec.st ≠ .busy → s.dec.len % 8 = 0 →
      exec .dec s = .next { s with dec := { s.dec with grp := 0, olen := 0, err := .none, st := .busy } } ∧
      (s.dec.len = 0 → decTurn { s with dec := { s.dec with grp := 0, olen := 0, err := .none, st := .busy } } =
        .next { s with dec := { s.dec with grp := 0, olen := 0, err := .none, st := .done } })) ∧
    (s.dec.st ≠ .busy → s.dec.len % 8 ≠ 0 →
      exec .dec s = .next { s with dec := { s.dec with grp := 0, olen := 0, err := .malformed .length, st := .error } } ∧
      decTurn { s with dec := { s.dec with grp := 0, olen := 0, err := .malformed .length, st := .error } } =
        .next { s with dec := { s.dec with grp := 0, olen := 0, err := .malformed .length, st := .error } }) ∧
    (s.dec.st = .busy → exec .dec s = .refused .startWhileBusy)

/-- R235: a START of a BUSY engine is refused; starting the other engine is always allowed, and does not touch the first. -/
def Obligations.OneOperationPerEngine : Prop :=
  ∀ s, (s.enc.st = .busy → exec .enc s = .refused .startWhileBusy) ∧
    (s.dec.st = .busy → exec .dec s = .refused .startWhileBusy) ∧
    (s.dec.st ≠ .busy → ∃ t, exec .dec s = .next t ∧ t.enc = s.enc) ∧
    (s.enc.st ≠ .busy → ∃ t, exec .enc s = .next t ∧ t.dec = s.dec)

/-- Every symbol (all 32 rows of format SYM: SYM_y, SYM_b, SYM_n, SYM_d, SYM_r, SYM_f, SYM_g, SYM_8, SYM_e, SYM_j, SYM_k, SYM_m, SYM_c,
SYM_p, SYM_q, SYM_x, SYM_o, SYM_t, SYM_1, SYM_u, SYM_w, SYM_i, SYM_s, SYM_z, SYM_a, SYM_3, SYM_4, SYM_5, SYM_h, SYM_7, SYM_6, SYM_9)
completes in every state: it folds its value into `DEC.ACC` (R155, R166) and changes nothing else; and its value is the one the
Alphabet gives its code (R100). That this is the effect of a SYM row is the model's reading (notes/assumptions/6.md). -/
def Obligations.SymbolsFoldTheirValue : Prop :=
  ∀ i, i ≠ .nop → i ≠ .enc → i ≠ .dec →
    ∃ v, alphabet v = encode i ∧
      ∀ s, exec i s = .next { s with dec := { s.dec with acc := (s.dec.acc <<< 5) + v.setWidth 40 } }

/-! ### The engine steps -/

/-- R134, R135: an enabled ENC.GROUP whose real input cells hold values completes. `ENC.ACC` is the group word of the five padded
reads, the quantum of that word is in `ENC.OUT[8g .. 8g+7]`, `ENC.GRP` advances by one. Everything else is unchanged, every other
cell of `ENC.OUT` and all of the other buffers among it; a cell at or beyond `ENC.LEN` is not read. -/
def Obligations.EncGroupEncodesOneGroup : Prop :=
  ∀ s, s.enc.st = .busy → 5 * s.enc.grp < s.enc.len →
    (∀ i, 5 * s.enc.grp ≤ i → i < 5 * s.enc.grp + 5 → i < s.enc.len → (memRead .encIn i s).isSome = true) →
    ∃ b0 b1 b2 b3 b4 t,
      (∀ k, k < 5 → (if 5 * s.enc.grp + k < s.enc.len then memRead .encIn (5 * s.enc.grp + k) s else some 0x00) =
        [b0, b1, b2, b3, b4][k]?) ∧
      encTurn s = .next t ∧ t.enc.acc = pack40 b0 b1 b2 b3 b4 ∧ t.enc.grp = s.enc.grp + 1 ∧
      (∀ k, k < 8 → memRead .encOut (8 * s.enc.grp + k) t = (encodeGroup b0 b1 b2 b3 b4)[k]?) ∧
      (∀ i, i < 8 * s.enc.grp ∨ 8 * s.enc.grp + 8 ≤ i → memRead .encOut i t = memRead .encOut i s) ∧
      t.enc.st = s.enc.st ∧ t.enc.len = s.enc.len ∧ t.enc.olen = s.enc.olen ∧ t.enc.inp = s.enc.inp ∧ t.dec = s.dec ∧
      t.script = s.script ∧ t.turns = s.turns ∧ t.tick = s.tick ∧ t.replies = s.replies

/-- R136: an enabled ENC.FINISH sets `ENC.OLEN` to `8 * ENC.GRP` and `ENC.ST` to DONE, and changes nothing else; in a good state
`ENC.GRP` is then `ceil(ENC.LEN / 5)` (a sentence the spec marks as its own inference). -/
def Obligations.EncFinishPublishesTheLength : Prop :=
  ∀ s, s.enc.st = .busy → s.enc.len ≤ 5 * s.enc.grp →
    encTurn s = .next { s with enc := { s.enc with olen := 8 * s.enc.grp, st := .done } } ∧
    (GoodState s → s.enc.grp = (s.enc.len + 4) / 5)

/-- R166: an enabled DEC.GROUP. When its eight units are symbols with values `vs`, it completes: `DEC.ACC` is their fold, the five
bytes of it are in `DEC.OUT[5g .. 5g+4]`, `DEC.GRP` advances by one, and nothing else changes. When all eight
cells hold values and any of them is foreign, whichever it is, it completes with the DIGIT error: `DEC.OLEN`, `DEC.ERR` and `DEC.ST` are
written and nothing else. (Where a cell holds no value the step is refused: UnwrittenInputIsRefused, notes/assumptions/13.md.) In a good state all eight indices
are below `DEC.LEN` (a sentence the spec marks as its own inference). -/
def Obligations.DecGroupDecodesOneQuantum : Prop :=
  ∀ s, s.dec.st = .busy → 8 * s.dec.grp < s.dec.len →
    (GoodState s → 8 * s.dec.grp + 8 ≤ s.dec.len) ∧
    (∀ v0 v1 v2 v3 v4 v5 v6 v7 : Val5,
      (∀ k, k < 8 → ∃ c, memRead .decIn (8 * s.dec.grp + k) s = some c ∧ rev c = [v0, v1, v2, v3, v4, v5, v6, v7][k]?) →
      ∃ t, decTurn s = .next t ∧ t.dec.acc = fold40 [v0, v1, v2, v3, v4, v5, v6, v7] ∧ t.dec.grp = s.dec.grp + 1 ∧
        (∀ k, k < 5 → memRead .decOut (5 * s.dec.grp + k) t = (unpack40 (fold40 [v0, v1, v2, v3, v4, v5, v6, v7]))[k]?) ∧
        (∀ i, i < 5 * s.dec.grp ∨ 5 * s.dec.grp + 5 ≤ i → memRead .decOut i t = memRead .decOut i s) ∧
        t.dec.st = s.dec.st ∧ t.dec.len = s.dec.len ∧ t.dec.olen = s.dec.olen ∧ t.dec.err = s.dec.err ∧
        t.dec.inp = s.dec.inp ∧ t.enc = s.enc ∧ t.script = s.script ∧ t.turns = s.turns ∧ t.tick = s.tick ∧
        t.replies = s.replies) ∧
    (∀ k c, k < 8 → memRead .decIn (8 * s.dec.grp + k) s = some c → rev c = none →
      (∀ j, j < 8 → (memRead .decIn (8 * s.dec.grp + j) s).isSome = true) →
      decTurn s = .next { s with dec := { s.dec with olen := 0, err := .malformed .digit, st := .error } })

/-- R167: after a DEC.GROUP that met a foreign unit the engine takes no further step, and no cell of `DEC.OUT` is readable. -/
def Obligations.FailedDecodeLeavesNoResult : Prop :=
  ∀ s t, s.dec.st = .busy → decTurn s = .next t → t.dec.st = .error →
    t.dec.err = .malformed .digit ∧ t.dec.olen = 0 ∧ t.dec.grp = s.dec.grp ∧ decTurn t = .next t ∧
    ∀ i, hostAct (.readOut .dec i) t = .refused .resultNotThere

/-- R168: an enabled DEC.FINISH sets `DEC.OLEN` to `5 * DEC.GRP` and `DEC.ST` to DONE, and changes nothing else; in a good state
`8 * DEC.GRP = DEC.LEN` then. -/
def Obligations.DecFinishPublishesTheLength : Prop :=
  ∀ s, s.dec.st = .busy → s.dec.len ≤ 8 * s.dec.grp →
    decTurn s = .next { s with dec := { s.dec with olen := 5 * s.dec.grp, st := .done } } ∧
    (GoodState s → 8 * s.dec.grp = s.dec.len)

/-- R246, R222: an engine that is not BUSY does nothing in its turn; a BUSY engine is never blocked. In a good state whose input is
written, its turn answers, and either takes one more group or leaves BUSY. -/
def Obligations.BusyEnginesMakeProgress : Prop :=
  (∀ s, s.enc.st ≠ .busy → encTurn s = .next s) ∧ (∀ s, s.dec.st ≠ .busy → decTurn s = .next s) ∧
  (∀ s, GoodState s → s.enc.st = .busy → (∀ i, i < s.enc.len → (memRead .encIn i s).isSome = true) →
    ∃ t, encTurn s = .next t ∧ ((t.enc.st = .busy ∧ t.enc.grp = s.enc.grp + 1) ∨ t.enc.st = .done)) ∧
  (∀ s, GoodState s → s.dec.st = .busy → (∀ i, i < s.dec.len → (memRead .decIn i s).isSome = true) →
    ∃ t, decTurn s = .next t ∧ ((t.dec.st = .busy ∧ t.dec.grp = s.dec.grp + 1) ∨ t.dec.st = .done ∨ t.dec.st = .error))

/-- R233: a GROUP step that would read an input cell that holds no value is refused; it is never read as zero. For DEC that
is so whatever the other seven cells hold, a foreign unit among them too: the step reads exactly eight units (R58), all of them before it
looks one up, so no order of the reads can be observed (the model's reading, notes/assumptions/13.md). -/
def Obligations.UnwrittenInputIsRefused : Prop :=
  (∀ s k, s.enc.st = .busy → 5 * s.enc.grp < s.enc.len → k < 5 → 5 * s.enc.grp + k < s.enc.len →
    memRead .encIn (5 * s.enc.grp + k) s = none → encTurn s = .refused .noValue) ∧
  (∀ s k, s.dec.st = .busy → 8 * s.dec.grp < s.dec.len → k < 8 → memRead .decIn (8 * s.dec.grp + k) s = none →
    decTurn s = .refused .noValue)

/-- R66: the engines share no mutable state. Neither engine's turn touches the other's registers and buffers, and where both
turns answer, taking them in either order ends in the same state. -/
def Obligations.EngineStepsCommute : Prop :=
  (∀ s t, encTurn s = .next t → t.dec = s.dec) ∧ (∀ s t, decTurn s = .next t → t.enc = s.enc) ∧
  (∀ s t u, encTurn s = .next t → decTurn s = .next u → ∃ v, decTurn t = .next v ∧ encTurn u = .next v)

/-- R21, R22, R27, R29 (the columns 'written by'), for every register and buffer of both engines. Of single turns: an engine's turn never
writes its input buffer or its length, nor any field of the model's own; the host's actions other than `rst` never write an output
buffer or an accumulator. And of every step of the machine: each of `ST`, `LEN`, `GRP`, `ACC`, `OLEN`, `IN`, `OUT` and `DEC.ERR` is
unchanged, or the step is one of its writers (START, GROUP, FINISH, the host's own write, reset), with the value that writer gives `LEN`,
`GRP`, `OLEN` and `ERR`. (Whose turn it is and what the host does are the model's fields, notes/assumptions/1.md and 2.md.) -/
def Obligations.WritersOfEachRegister : Prop :=
  (∀ s t, encTurn s = .next t → t.enc.inp = s.enc.inp ∧ t.enc.len = s.enc.len ∧ t.script = s.script ∧ t.turns = s.turns ∧
    t.tick = s.tick ∧ t.replies = s.replies) ∧
  (∀ s t, decTurn s = .next t → t.dec.inp = s.dec.inp ∧ t.dec.len = s.dec.len ∧ t.script = s.script ∧ t.turns = s.turns ∧
    t.tick = s.tick ∧ t.replies = s.replies) ∧
  (∀ a s t, a ≠ .rst → hostAct a s = .next t → t.enc.out = s.enc.out ∧ t.dec.out = s.dec.out ∧ t.enc.acc = s.enc.acc ∧
    t.dec.acc = s.dec.acc) ∧
  (∀ s t, step s = .next t →
    (t.enc.st = s.enc.st ∨ HostDoes .rst s ∨ EncStarts s ∨ EncFinishes s) ∧
    (t.enc.len = s.enc.len ∨ HostDoes .rst s ∧ t.enc.len = 0 ∨ HostDoes (.writeLen .enc t.enc.len) s ∧ s.enc.st ≠ .busy) ∧
    (t.enc.grp = s.enc.grp ∨ HostDoes .rst s ∧ t.enc.grp = 0 ∨ EncStarts s ∧ t.enc.grp = 0 ∨
      EncGroups s ∧ t.enc.grp = s.enc.grp + 1) ∧
    (t.enc.acc = s.enc.acc ∨ HostDoes .rst s ∨ EncGroups s) ∧
    (t.enc.olen = s.enc.olen ∨ HostDoes .rst s ∧ t.enc.olen = 0 ∨ EncStarts s ∧ t.enc.olen = 0 ∨
      EncFinishes s ∧ t.enc.olen = 8 * s.enc.grp) ∧
    (t.enc.inp = s.enc.inp ∨ HostDoes .rst s ∨ ∃ i v, HostDoes (.writeIn .enc i v) s ∧ s.enc.st ≠ .busy) ∧
    (t.enc.out = s.enc.out ∨ HostDoes .rst s ∨ EncGroups s)) ∧
  (∀ s t, step s = .next t →
    (t.dec.st = s.dec.st ∨ HostDoes .rst s ∨ DecStarts s ∨ DecGroups s ∧ t.dec.st = .error ∨ DecFinishes s) ∧
    (t.dec.len = s.dec.len ∨ HostDoes .rst s ∧ t.dec.len = 0 ∨ HostDoes (.writeLen .dec t.dec.len) s ∧ s.dec.st ≠ .busy) ∧
    (t.dec.grp = s.dec.grp ∨ HostDoes .rst s ∧ t.dec.grp = 0 ∨ DecStarts s ∧ t.dec.grp = 0 ∨
      DecGroups s ∧ t.dec.grp = s.dec.grp + 1) ∧
    (t.dec.acc = s.dec.acc ∨ HostDoes .rst s ∨ DecGroups s ∧ t.dec.st = .busy) ∧
    (t.dec.olen = s.dec.olen ∨ HostDoes .rst s ∧ t.dec.olen = 0 ∨ DecStarts s ∧ t.dec.olen = 0 ∨
      DecGroups s ∧ t.dec.st = .error ∧ t.dec.olen = 0 ∨ DecFinishes s ∧ t.dec.olen = 5 * s.dec.grp) ∧
    (t.dec.err = s.dec.err ∨ HostDoes .rst s ∧ t.dec.err = .none ∨
      DecStarts s ∧ t.dec.err = (if s.dec.len % 8 = 0 then .none else .malformed .length) ∨
      DecGroups s ∧ t.dec.st = .error ∧ t.dec.err = .malformed .digit) ∧
    (t.dec.inp = s.dec.inp ∨ HostDoes .rst s ∨ ∃ i v, HostDoes (.writeIn .dec i v) s ∧ s.dec.st ≠ .busy) ∧
    (t.dec.out = s.dec.out ∨ HostDoes .rst s ∨ DecGroups s ∧ t.dec.st = .busy))

/-- R223: an engine leaves BUSY only by its own step, or by reset. With it the whole list of transitions of R25: what one step can
do to `ENC.ST` and to `DEC.ST`, and by whom. -/
def Obligations.StatusTransitions : Prop :=
  ∀ s t, step s = .next t →
    (t.enc.st = s.enc.st ∨
      ((takeTurn s).1 = .host ∧ s.script.head? = some .rst ∧ t.enc.st = .idle) ∨
      ((takeTurn s).1 = .host ∧ s.script.head? = some (.writeCmd 0b01) ∧ s.enc.st ≠ .busy ∧ t.enc.st = .busy) ∨
      ((takeTurn s).1 = .enc ∧ s.enc.st = .busy ∧ s.enc.len ≤ 5 * s.enc.grp ∧ t.enc.st = .done)) ∧
    (t.dec.st = s.dec.st ∨
      ((takeTurn s).1 = .host ∧ s.script.head? = some .rst ∧ t.dec.st = .idle) ∨
      ((takeTurn s).1 = .host ∧ s.script.head? = some (.writeCmd 0b10) ∧ s.dec.st ≠ .busy ∧
        t.dec.st = (if s.dec.len % 8 = 0 then .busy else .error)) ∨
      ((takeTurn s).1 = .dec ∧ s.dec.st = .busy ∧ s.dec.len ≤ 8 * s.dec.grp ∧ t.dec.st = .done) ∨
      ((takeTurn s).1 = .dec ∧ s.dec.st = .busy ∧ 8 * s.dec.grp < s.dec.len ∧ t.dec.st = .error))

/-- R24: START sets the group counter of its engine to 0, each GROUP step adds exactly 1, reset clears it, nothing else changes it;
and the accumulator of an engine changes only in its GROUP step or by reset (R21, R22, R135, R166). Over every step of the machine. -/
def Obligations.GroupCountersAndAccumulators : Prop :=
  ∀ s t, step s = .next t →
    ((t.enc.grp = s.enc.grp ∧ t.enc.acc = s.enc.acc) ∨
      ((takeTurn s).1 = .enc ∧ s.enc.st = .busy ∧ 5 * s.enc.grp < s.enc.len ∧ t.enc.grp = s.enc.grp + 1) ∨
      ((takeTurn s).1 = .host ∧ s.script.head? = some (.writeCmd 0b01) ∧ t.enc.grp = 0 ∧ t.enc.acc = s.enc.acc) ∨
      ((takeTurn s).1 = .host ∧ s.script.head? = some .rst ∧ t.enc.grp = 0)) ∧
    ((t.dec.grp = s.dec.grp ∧ t.dec.acc = s.dec.acc) ∨
      ((takeTurn s).1 = .dec ∧ s.dec.st = .busy ∧ 8 * s.dec.grp < s.dec.len ∧ t.dec.grp = s.dec.grp + 1) ∨
      ((takeTurn s).1 = .host ∧ s.script.head? = some (.writeCmd 0b10) ∧ t.dec.grp = 0 ∧ t.dec.acc = s.dec.acc) ∨
      ((takeTurn s).1 = .host ∧ s.script.head? = some .rst ∧ t.dec.grp = 0))

/-- R212: an error persists. From a state in which DEC is in ERROR, any step that answers leaves `DEC.ST`, `DEC.ERR`, `DEC.OLEN` and
`DEC.OUT` as they are, unless it is the host's DEC.START, which overwrites both status and cause, or a reset. -/
def Obligations.ErrorPersistsUntilStartOrReset : Prop :=
  ∀ s t, s.dec.st = .error → step s = .next t →
    (t.dec.st = .error ∧ t.dec.err = s.dec.err ∧ t.dec.olen = s.dec.olen ∧ t.dec.out = s.dec.out) ∨
    ((takeTurn s).1 = .host ∧ s.script.head? = some .rst ∧ t.dec.st = .idle ∧ t.dec.err = .none ∧ t.dec.olen = 0) ∨
    ((takeTurn s).1 = .host ∧ s.script.head? = some (.writeCmd 0b10) ∧ t.dec.olen = 0 ∧
      t.dec.st = (if s.dec.len % 8 = 0 then .busy else .error) ∧
      t.dec.err = (if s.dec.len % 8 = 0 then .none else .malformed .length))

/-! ### The host's reads and writes -/

/-- R236, R237: while X is BUSY its operands may not be written and its result and error may not be read; `X.OUT[i]` may not be read
unless X is DONE and `i < X.OLEN`. All are refused. -/
def Obligations.ProtocolHazardsAreRefused : Prop :=
  ∀ s x i v n,
    (s.st x = .busy → hostAct (.writeIn x i v) s = .refused .writeWhileBusy ∧ hostAct (.writeLen x n) s = .refused .writeWhileBusy ∧
      hostAct (.readOlen x) s = .refused .readWhileBusy) ∧
    (s.st .dec = .busy → hostAct .readErr s = .refused .readWhileBusy) ∧
    (¬ (s.st x = .done ∧ i < s.olen x) → hostAct (.readOut x i) s = .refused .resultNotThere)

/-- The other side of it: while X is not BUSY the host may write its operands and read them back, and read its error and result length, and it
may read `X.ST` always; each action completes with exactly the effect R28, R29 and R33 give it. -/
def Obligations.HostPortsAnswer : Prop :=
  ∀ s x i v n,
    hostAct (.readSt x) s = .next (reply (.st x (s.st x).code) s) ∧
    (s.st x ≠ .busy →
      hostAct (.readOlen x) s = .next (reply (.olen x (s.olen x)) s) ∧
      hostAct (.readLen x) s = .next (reply (.len x (s.len x)) s) ∧
      (∃ t, hostAct (.writeLen x n) s = .next t ∧ t.len x = n ∧ (∀ y, y ≠ x → t.len y = s.len y) ∧
        (∀ y, t.st y = s.st y ∧ t.grp y = s.grp y ∧ t.olen y = s.olen y) ∧ (∀ sp j, memRead sp j t = memRead sp j s) ∧
        t.enc.acc = s.enc.acc ∧ t.dec.acc = s.dec.acc ∧ t.dec.err = s.dec.err ∧ t.script = s.script ∧ t.turns = s.turns ∧
        t.tick = s.tick ∧ t.replies = s.replies) ∧
      (∃ t, hostAct (.writeIn x i v) s = .next t ∧ memRead (inSpace x) i t = some v ∧
        (∀ sp j, sp ≠ inSpace x ∨ j ≠ i → memRead sp j t = memRead sp j s) ∧
        (∀ y, t.st y = s.st y ∧ t.grp y = s.grp y ∧ t.olen y = s.olen y ∧ t.len y = s.len y) ∧
        t.enc.acc = s.enc.acc ∧ t.dec.acc = s.dec.acc ∧ t.dec.err = s.dec.err ∧ t.script = s.script ∧ t.turns = s.turns ∧
        t.tick = s.tick ∧ t.replies = s.replies) ∧
      (∀ w, memRead (inSpace x) i s = some w → hostAct (.readIn x i) s = .next (reply (.inp x i w) s))) ∧
    (s.st .dec ≠ .busy → hostAct .readErr s = .next (reply (.err s.dec.err.code) s))

/-- In a good state a result that is there can be read: when X is DONE and `i < X.OLEN` the read completes with the unit in the
cell, and for ENC that unit is a symbol (R29, R130). -/
def Obligations.ResultsAreReadable : Prop :=
  ∀ s x i, GoodState s → s.st x = .done → i < s.olen x →
    ∃ v, memRead (outSpace x) i s = some v ∧ hostAct (.readOut x i) s = .next (reply (.out x i v) s) ∧
      (x = .enc → ∃ w, v = alphabet w)

/-- `LOAD X, lit` (R89): run by the host alone while X is not BUSY, its actions leave the literal in `X.IN[0 ..]` and its length in
`X.LEN`, every other cell as it was, and nothing else changed but the script that is done. -/
def Obligations.LoadWritesTheInput : Prop :=
  ∀ s x lit rest, s.st x ≠ .busy → s.script = load x lit ++ rest →
    ∃ t, turnsOf .host (lit.length + 1) s = .next t ∧ InputIs x lit t ∧ t.script = rest ∧
      (∀ sp i, sp ≠ inSpace x ∨ lit.length ≤ i → memRead sp i t = memRead sp i s) ∧
      (∀ y, t.st y = s.st y ∧ t.grp y = s.grp y ∧ t.olen y = s.olen y) ∧ (∀ y, y ≠ x → t.len y = s.len y) ∧
      t.enc.acc = s.enc.acc ∧ t.dec.acc = s.dec.acc ∧ t.dec.err = s.dec.err ∧ t.turns = s.turns ∧ t.tick = s.tick ∧
      t.replies = s.replies

/-- `READ X` (R89): run by the host alone, it answers the status, the result length, for DEC the error cause, and when X is DONE every
unit of the result in order; after a failed decode it answers the cause and no unit; of an IDLE engine it answers status, length, for DEC
the cause, and no unit. It changes nothing but the script and the replies (notes/assumptions/2.md). While X is BUSY its read of `X.ST`
answers BUSY and its read of `X.OLEN`, the next, is refused (R237). -/
def Obligations.ReadReportsTheOutcome : Prop :=
  (∀ s x r rest, ResultIs x r s → s.script = .read x :: rest →
    turnsOf .host ((if x = .dec then 3 else 2) + r.length) s = .next { s with
      script := rest
      replies := (r.zipIdx.map (fun p => Reply.out x p.2 p.1)).reverse ++ (if x = .dec then [.err s.dec.err.code] else []) ++
        [.olen x r.length, .st x 2] ++ s.replies }) ∧
  (∀ s rest, s.dec.st = .error → s.script = .read .dec :: rest →
    turnsOf .host 3 s = .next { s with
      script := rest, replies := [.err s.dec.err.code, .olen .dec s.dec.olen, .st .dec 3] ++ s.replies }) ∧
  (∀ s x rest, s.st x = .idle → s.script = .read x :: rest →
    turnsOf .host (if x = .dec then 3 else 2) s = .next { s with
      script := rest
      replies := (if x = .dec then [.err s.dec.err.code] else []) ++ [.olen x (s.olen x), .st x 0] ++ s.replies }) ∧
  (∀ s x rest, s.st x = .busy → s.script = .read x :: rest →
    turnsOf .host 1 s = .next { s with script := readRest s x ++ rest, replies := .st x 1 :: s.replies } ∧
    turnsOf .host 2 s = .refused .readWhileBusy)

/-- `WAIT X` (R89): each turn of it reads `X.ST`; it stays the host's next action while X is BUSY and is done otherwise. -/
def Obligations.WaitPollsTheStatus : Prop :=
  ∀ s x rest, s.script = .wait x :: rest →
    (s.st x = .busy → hostTurn s = .next { s with replies := .st x 1 :: s.replies }) ∧
    (s.st x ≠ .busy → hostTurn s = .next { s with script := rest, replies := .st x (s.st x).code :: s.replies })

/-! ### Tables and operands -/

/-- R104: the Forward table, built by the two nested loops of R102, has 1024 entries, and the entry of every 10-bit value is the two
symbols of its high and its low 5 bits. -/
def Obligations.ForwardTableIsTheDoubleLookup : Prop :=
  fwdTable.length = 1024 ∧ (∀ a b : Val5, fwdTable[a.toNat * 32 + b.toNat]? = some (alphabet a, alphabet b)) ∧
  (∀ f : Field10, fwdTable[f.toNat]? = some (alphabet (f >>> 5 |>.setWidth 5), alphabet (f &&& 31 |>.setWidth 5)) ∧
    fwdTable[f.toNat]? = some (fwdLookup f))

/-- R107 (the spec marks it as its own inference): the Alphabet and the Reverse table are inverse, and exactly 32 of the 256 code units are symbols. -/
def Obligations.ReverseTableInvertsTheAlphabet : Prop :=
  (∀ v, rev (alphabet v) = some v) ∧ (∀ c v, rev c = some v → alphabet v = c) ∧
  (∀ c d v, rev c = some v → rev d = some v → c = d) ∧
  ((List.range 256).filter (fun n => (rev (BitVec.ofNat 8 n)).isSome)).length = 32 ∧
  ((List.range 256).filter (fun n => (rev (BitVec.ofNat 8 n)).isNone)).length = 224

/-- R77, R87: the unit decoder written from the opcode table and the Reverse table built from the Alphabet agree on all 256 units. -/
def Obligations.UnitDecoderIsTheReverseTable : Prop :=
  ∀ c v, rev c = some v ↔ ∃ i, decodeUnit c = .ok i ∧ i.symValue = some v

/-- R155, R72: the fold puts value `k` in bits `39-5k` to `35-5k`, whatever the accumulator held before the first shift. -/
def Obligations.FoldPlacesEachValue : Prop :=
  ∀ (a : GroupWord) (v0 v1 v2 v3 v4 v5 v6 v7 : Val5),
    [v0, v1, v2, v3, v4, v5, v6, v7].foldl foldStep a = v0 ++ v1 ++ v2 ++ v3 ++ v4 ++ v5 ++ v6 ++ v7 ∧
    fold40 [v0, v1, v2, v3, v4, v5, v6, v7] = v0 ++ v1 ++ v2 ++ v3 ++ v4 ++ v5 ++ v6 ++ v7

/-- R70, R71, R125, R159: the group word is the five bytes in order, the four fields in order cover it, and pack and unpack are
inverse. -/
def Obligations.GroupWordLayout : Prop :=
  (∀ b0 b1 b2 b3 b4 : Byte, pack40 b0 b1 b2 b3 b4 = b0 ++ b1 ++ b2 ++ b3 ++ b4 ∧
    (pack40 b0 b1 b2 b3 b4).toNat = b0.toNat * 2 ^ 32 + b1.toNat * 2 ^ 24 + b2.toNat * 2 ^ 16 + b3.toNat * 2 ^ 8 + b4.toNat ∧
    unpack40 (pack40 b0 b1 b2 b3 b4) = [b0, b1, b2, b3, b4]) ∧
  (∀ w : GroupWord, w = field w 0 ++ field w 1 ++ field w 2 ++ field w 3 ∧
    ∃ b0 b1 b2 b3 b4, unpack40 w = [b0, b1, b2, b3, b4] ∧ pack40 b0 b1 b2 b3 b4 = w)

/-- R138 (the spec marks it as its own inference): ENCGROUP equals the form that uses no Forward table, one Alphabet lookup per 5-bit value. -/
def Obligations.EncodeGroupSymbolAtATime : Prop :=
  ∀ b0 b1 b2 b3 b4 : Byte,
    encodeGroup b0 b1 b2 b3 b4 = (List.range 8).map (fun k => alphabet (valueAt (pack40 b0 b1 b2 b3 b4) k))

/-- R174 (the spec marks it as its own inference): ENCGROUP is a bijection from the five-byte groups onto the quanta made of symbols only, and DECGROUP on those quanta is its
inverse; on any other quantum DECGROUP fails with DIGIT. -/
def Obligations.GroupsAndQuantaCorrespond : Prop :=
  (∀ b0 b1 b2 b3 b4 : Byte, (encodeGroup b0 b1 b2 b3 b4).length = 8 ∧
    (∀ c ∈ encodeGroup b0 b1 b2 b3 b4, (rev c).isSome = true) ∧
    decodeGroup (encodeGroup b0 b1 b2 b3 b4) = .ok [b0, b1, b2, b3, b4]) ∧
  (∀ cs : List Byte, cs.length = 8 → (∀ c ∈ cs, (rev c).isSome = true) →
    ∃ b0 b1 b2 b3 b4, decodeGroup cs = .ok [b0, b1, b2, b3, b4] ∧ encodeGroup b0 b1 b2 b3 b4 = cs) ∧
  (∀ cs : List Byte, (∃ c ∈ cs, rev c = none) → decodeGroup cs = .error .digit)

/-- R140 (the spec marks it as its own inference): which symbols of a padded last group are forced, for one, two, three and four real bytes. -/
def Obligations.PaddedGroupForcesItsLastSymbols : Prop :=
  ∀ b0 b1 b2 b3 : Byte,
    ((encodeGroup b0 0 0 0 0).drop 2 = List.replicate 6 (alphabet 0) ∧ valueAt (pack40 b0 0 0 0 0) 1 &&& 3 = 0) ∧
    ((encodeGroup b0 b1 0 0 0).drop 4 = List.replicate 4 (alphabet 0) ∧ valueAt (pack40 b0 b1 0 0 0) 3 &&& 15 = 0) ∧
    ((encodeGroup b0 b1 b2 0 0).drop 5 = List.replicate 3 (alphabet 0) ∧ valueAt (pack40 b0 b1 b2 0 0) 4 &&& 1 = 0) ∧
    ((encodeGroup b0 b1 b2 b3 0).drop 7 = [alphabet 0] ∧ valueAt (pack40 b0 b1 b2 b3 0) 6 &&& 7 = 0)

/-! ### The function view -/

/-- R128: the output length of the encoder. -/
def Obligations.EncodeLength : Prop := ∀ b : List Byte, (encodeBytes b).length = 8 * ((b.length + 4) / 5)

/-- R130: every unit the encoder produces is a symbol, and its output is always accepted by the decoder (the latter a sentence the
spec marks as its own inference). -/
def Obligations.EncodeProducesOnlySymbols : Prop :=
  ∀ b : List Byte, (∀ c ∈ encodeBytes b, ∃ v, c = alphabet v) ∧ ∃ x, decodeText (encodeBytes b) = .ok x

/-- R152, R156, R158: the three outcomes of the decoder. A bad length fails with LENGTH whatever the units are; a good length with a
foreign unit anywhere fails with DIGIT; otherwise it succeeds, with five bytes for eight units. -/
def Obligations.DecodeOutcomes : Prop :=
  ∀ s : List Byte,
    (s.length % 8 ≠ 0 → decodeText s = .error .length) ∧
    (s.length % 8 = 0 → (∃ c ∈ s, rev c = none) → decodeText s = .error .digit) ∧
    (s.length % 8 = 0 → (∀ c ∈ s, rev c ≠ none) → ∃ x, decodeText s = .ok x ∧ x.length = 5 * s.length / 8)

/-- R171: the round trip. Decoding the encoding of an input whose length is a multiple of 5 gives the input back. -/
def Obligations.RoundTripOnWholeGroups : Prop := ∀ b : List Byte, b.length % 5 = 0 → decodeText (encodeBytes b) = .ok b

/-- R172 (the spec marks it as its own inference): the round trip for any length. Decoding an encoding gives the padded input. -/
def Obligations.RoundTripGivesThePaddedInput : Prop :=
  ∀ b : List Byte, decodeText (encodeBytes b) = .ok (pad5 b)

/-- R173 (the spec marks it as its own inference): the other round trip. Every text that decodes is the encoding of what it decodes to. -/
def Obligations.DecodableTextsAreCanonical : Prop := ∀ s x : List Byte, decodeText s = .ok x → encodeBytes x = s

/-- The padding rough edge (R139, which the spec marks as its own inference; the converse is the model's): two inputs have the same encoding exactly when they agree after padding. -/
def Obligations.EncodingForgetsExactlyThePadding : Prop :=
  ∀ b b' : List Byte, encodeBytes b = encodeBytes b' ↔ pad5 b = pad5 b'

/-- R240, where an input may be cut: an encoder input at a multiple of 5 bytes, a decoder input at a multiple of 8 symbols; the
pieces' results then concatenate to the whole's. (The rule's word that other cuts do not concatenate is not stated: on inputs of
zero bytes some do.) -/
def Obligations.InputsMayBeCutAtGroups : Prop :=
  (∀ b b' : List Byte, b.length % 5 = 0 → encodeBytes (b ++ b') = encodeBytes b ++ encodeBytes b') ∧
  (∀ s s' x x' : List Byte, decodeText s = .ok x → decodeText s' = .ok x' → decodeText (s ++ s') = .ok (x ++ x'))

/-- R192, R193, R209: the adapter and the order of the errors. A text with a character above `0x7F` is refused before anything else; an
ASCII text and a byte sequence go to the decoder unit by unit; a value with no byte view is refused; then LENGTH comes before DIGIT.
When the adapter fails no hardware state changes (R205, R206). -/
def Obligations.AdapterComesFirst : Prop :=
  (∀ cps : List Nat, (∃ cp ∈ cps, 0x7F < cp) →
    normalizeValue (.text cps) = .error .invalidCharacterSet ∧ decodeValue (.text cps) = .error (.adapter .invalidCharacterSet)) ∧
  (∀ cps : List Nat, (∀ cp ∈ cps, cp ≤ 0x7F) → ∃ us, normalizeValue (.text cps) = .ok us ∧ us.map BitVec.toNat = cps) ∧
  (∀ us, normalizeValue (.bytes us) = .ok us) ∧
  (∀ t, Config.view t = none →
    normalizeValue (.other t) = .error .unsupportedType ∧ decodeValue (.other t) = .error (.adapter .unsupportedType)) ∧
  (∀ t us, Config.view t = some us → normalizeValue (.other t) = .ok us) ∧
  (∀ x us, normalizeValue x = .ok us → us.length % 8 ≠ 0 → decodeValue x = .error (.malformedInput .length)) ∧
  (∀ x us, normalizeValue x = .ok us → us.length % 8 = 0 → (∃ c ∈ us, rev c = none) →
    decodeValue x = .error (.malformedInput .digit)) ∧
  (∀ x e s, normalizeValue x = .error e → ∃ t, hostAct (.submit x) s = .next t ∧ t.enc = s.enc ∧ t.dec = s.dec ∧
    t.script = s.script ∧ t.replies = .adapter e :: s.replies)

/-! ### Headlines -/

/-- The invariant: every step from a good state, by any agent and whatever the host does, ends in a good state. -/
def Obligations.EveryStepKeepsTheInvariant : Prop := ∀ s t, GoodState s → step s = .next t → GoodState t

/-- R240 with R24: for every finite `LENW`, a host that keeps to it makes every register fit its width and every buffer access fall
inside the buffer, and no counter wraps: the bounds hold after every step, and they are below the register widths of R21 and R22. -/
def Obligations.FiniteWidthsAreNeverExceeded : Prop :=
  (∀ lenw s t, GoodState s → Fits lenw s → ScriptWf lenw s → step s = .next t → Fits lenw t ∧ ScriptWf lenw t) ∧
  (∀ lenw s, Fits lenw s → s.enc.len < 2 ^ lenw ∧ s.dec.len < 2 ^ lenw ∧ s.enc.grp < 2 ^ lenw ∧ s.dec.grp < 2 ^ lenw ∧
    s.enc.olen < 2 ^ (lenw + 3) ∧ s.dec.olen < 2 ^ lenw)

/-- R137: the step view of the encoder computes the function view. After ENC.START over an input `b`, ENC alone takes exactly
`ceil(n / 5)` ENC.GROUP steps and one ENC.FINISH and is then DONE with `Encode(b)`; and in every run of the machine, whatever order
of turns and whatever the other agents do meanwhile, ENC is BUSY until it has had that many turns and DONE with `Encode(b)` from
then on, as long as the host leaves ENC alone. (The order of turns is the model's field `turns`, notes/assumptions/1.md.) -/
def Obligations.EncoderStepsComputeEncode : Prop :=
  ∀ (b : List Byte) (s0 s : State), InputIs .enc b s0 → exec .enc s0 = .next s →
    (∀ m, m ≤ (b.length + 4) / 5 → ∃ u, turnsOf .enc m s = .next u ∧ u.enc.st = .busy ∧ u.enc.grp = m) ∧
    (∃ u, turnsOf .enc ((b.length + 4) / 5 + 1) s = .next u ∧ ResultIs .enc (encodeBytes b) u) ∧
    (∀ k t, LeftAlone .enc s → k ≤ s.turns.length → steps k s = .next t →
      let m := (s.turns.take k).count .enc
      (m ≤ (b.length + 4) / 5 → t.enc.st = .busy ∧ t.enc.grp = m) ∧
      ((b.length + 4) / 5 < m → ResultIs .enc (encodeBytes b) t))

/-- R170: the step view of the decoder computes the function view, in its three outcomes. After DEC.START over an input `s`: a good
text ends in DONE with `Decode(s)` after exactly `n / 8` DEC.GROUP steps and one DEC.FINISH; a bad length is already ERROR, LENGTH,
with no engine step; a first foreign unit at index `i` ends in ERROR, DIGIT, `OLEN = 0` after exactly `floor(i / 8) + 1` DEC.GROUP
steps. Each holds of DEC alone and of every run, whatever the order of turns and whatever the other agents do, as long as the host
leaves DEC alone. (The order of turns is the model's field `turns`, notes/assumptions/1.md.) -/
def Obligations.DecoderStepsComputeDecode : Prop :=
  ∀ (b : List Byte) (s0 s : State), InputIs .dec b s0 → exec .dec s0 = .next s →
    (∀ x, decodeText b = .ok x →
      (∀ m, m ≤ b.length / 8 → ∃ u, turnsOf .dec m s = .next u ∧ u.dec.st = .busy ∧ u.dec.grp = m) ∧
      (∃ u, turnsOf .dec (b.length / 8 + 1) s = .next u ∧ ResultIs .dec x u ∧ u.dec.err = .none) ∧
      (∀ k t, LeftAlone .dec s → k ≤ s.turns.length → steps k s = .next t →
        let m := (s.turns.take k).count .dec
        (m ≤ b.length / 8 → t.dec.st = .busy ∧ t.dec.grp = m) ∧
        (b.length / 8 < m → ResultIs .dec x t ∧ t.dec.err = .none))) ∧
    (decodeText b = .error .length →
      s.dec.st = .error ∧ s.dec.err = .malformed .length ∧ s.dec.olen = 0 ∧ decTurn s = .next s ∧
      (∀ k t, LeftAlone .dec s → k ≤ s.turns.length → steps k s = .next t → t.dec = s.dec)) ∧
    (∀ i c, decodeText b = .error .digit → b[i]? = some c → rev c = none → (∀ j d, j < i → b[j]? = some d → rev d ≠ none) →
      (∀ m, m ≤ i / 8 → ∃ u, turnsOf .dec m s = .next u ∧ u.dec.st = .busy ∧ u.dec.grp = m) ∧
      (∃ u, turnsOf .dec (i / 8 + 1) s = .next u ∧ u.dec.st = .error ∧ u.dec.err = .malformed .digit ∧ u.dec.olen = 0) ∧
      (∀ k t, LeftAlone .dec s → k ≤ s.turns.length → steps k s = .next t →
        let m := (s.turns.take k).count .dec
        (m ≤ i / 8 → t.dec.st = .busy ∧ t.dec.grp = m) ∧
        (i / 8 < m → t.dec.st = .error ∧ t.dec.err = .malformed .digit ∧ t.dec.olen = 0)))

/-- R196 on the machine: for the document's `decode(x)`, submitted by the host as its whole script while DEC is not BUSY, there is an
order of turns that runs it to its end, and it ends in the outcome of `decode(x)`: the decoded bytes as DEC's result, the cause in
`DEC.ERR`, or the adapter's error with DEC untouched. (The order of turns is the model's field `turns`, notes/assumptions/1.md; that it
is a host action of its own is the model's choice, notes/assumptions/16.md.) -/
def Obligations.SubmittedValueIsDecoded : Prop :=
  ∀ (s : State) (x : HostValue), s.dec.st ≠ .busy → s.script = [.submit x] →
    ∃ (ts : List Agent) (t : State), steps ts.length { s with turns := ts } = .next t ∧ t.script = [] ∧ t.turns = [] ∧ t.enc = s.enc ∧
      (∀ b, decodeValue x = .ok b → ResultIs .dec b t ∧ t.dec.err = .none) ∧
      (∀ c, decodeValue x = .error (.malformedInput c) → t.dec.st = .error ∧ t.dec.err = .malformed c ∧ t.dec.olen = 0) ∧
      (∀ e, decodeValue x = .error (.adapter e) → t.dec = s.dec ∧ t.replies = .adapter e :: s.replies)

/-! ### Reads the host may not make -/

/-- R34, R60: a host read of `X.IN[i]` whose cell holds no value is refused, never answered with zero, and so is a read of such a cell
of `X.OUT`, even below `X.OLEN`; a host read of `X.LEN` or of `X.IN[i]` while X is BUSY is refused (the model's choice: R60 lets the host
read `X.ST` only, R33 and R237 do not say, notes/assumptions/15.md). -/
def Obligations.InputReadsAreRefusedWhenUnwrittenOrBusy : Prop :=
  ∀ s x i,
    (s.st x ≠ .busy → memRead (inSpace x) i s = none → hostAct (.readIn x i) s = .refused .noValue) ∧
    (s.st x = .done → i < s.olen x → memRead (outSpace x) i s = none → hostAct (.readOut x i) s = .refused .noValue) ∧
    (s.st x = .busy → hostAct (.readLen x) s = .refused .readWhileBusy ∧ hostAct (.readIn x i) s = .refused .readWhileBusy)
end

