-- ==== Sys2Proof/Laws/Memory.lean ====
section
/-! SUPPORT. The laws of one buffer: a read after a write, the other cells, and the canonical form. -/

namespace Sys2Proof.Machine

namespace Memory

@[simp] theorem read_nil (i : Nat) : Memory.read [] i = none := rfl

theorem read_cons (a : Nat) (v : Byte) (m : Memory) (i : Nat) :
    Memory.read ((a, v) :: m) i = if i = a then some v else Memory.read m i := rfl

/-- A read gives what the last write put at the same index. -/
@[simp] theorem read_write_same (m : Memory) (i : Nat) (v : Byte) : (Memory.write m i v).read i = some v := by
  induction m with
  | nil => simp [write, read]
  | cons c m ih =>
    simp only [write]
    split
    · simp [read]
    · split
      · simp [read]
      · rename_i h
        simp [read, h, ih]

/-- A write leaves every other cell alone. -/
theorem read_write_other (m : Memory) {i j : Nat} (v : Byte) (h : j ≠ i) : (Memory.write m i v).read j = m.read j := by
  induction m with
  | nil => simp [write, read, h, unlisted]
  | cons c m ih =>
    simp only [write]
    split
    · simp [read, h]
    · split
      · rename_i e
        subst e
        simp [read, h]
      · simp [read, ih]

theorem read_write (m : Memory) (i j : Nat) (v : Byte) :
    (Memory.write m i v).read j = if j = i then some v else m.read j := by
  split
  · rename_i h
    subst h
    exact read_write_same ..
  · rename_i h
    exact read_write_other _ _ h

/-- The cells after a write are the written one and old ones. -/
theorem mem_write {m : Memory} {i : Nat} {v : Byte} {c : Host.Cell} (h : c ∈ Memory.write m i v) : c = (i, v) ∨ c ∈ m := by
  induction m with
  | nil => simpa [write] using h
  | cons d m ih =>
    simp only [write] at h
    split at h
    · simpa using h
    · split at h
      · simp only [List.mem_cons] at h ⊢
        tauto
      · simp only [List.mem_cons] at h ⊢
        rcases h with rfl | h
        · exact .inr (.inl rfl)
        · rcases ih h with h | h
          · exact .inl h
          · exact .inr (.inr h)

/-- A write keeps the canonical form. -/
theorem write_wf {m : Memory} (h : Memory.wf m) (i : Nat) (v : Byte) : Memory.wf (Memory.write m i v) := by
  induction m with
  | nil => simp [write, wf]
  | cons d m ih =>
    obtain ⟨hd, hm⟩ := List.pairwise_cons.1 h
    simp only [write]
    split
    · rename_i lt
      refine List.pairwise_cons.2 ⟨fun c hc => ?_, h⟩
      rcases List.mem_cons.1 hc with rfl | hc
      · exact lt
      · exact Nat.lt_trans lt (hd c hc)
    · split
      · rename_i e
        subst e
        exact List.pairwise_cons.2 ⟨hd, hm⟩
      · refine List.pairwise_cons.2 ⟨fun c hc => ?_, ih hm⟩
        rcases mem_write hc with rfl | hc
        · show d.1 < i
          omega
        · exact hd c hc

/-- Consecutive writes keep the canonical form. -/
theorem writeUnits_wf {m : Memory} (h : Memory.wf m) (base : Nat) (cs : List Byte) : Memory.wf (Memory.writeUnits m base cs) := by
  induction cs generalizing m base with
  | nil => exact h
  | cons c cs ih => exact ih (write_wf h base c) (base + 1)

/-- The cells after consecutive writes are old ones or lie in the written range. -/
theorem mem_writeUnits {cs : List Byte} {m : Memory} {base : Nat} {c : Host.Cell} (h : c ∈ Memory.writeUnits m base cs) :
    c ∈ m ∨ (base ≤ c.1 ∧ c.1 < base + cs.length) := by
  induction cs generalizing m base with
  | nil => exact .inl h
  | cons d cs ih =>
    simp only [List.length_cons]
    rcases ih (m := Memory.write m base d) (base := base + 1) h with h | h
    · rcases mem_write h with rfl | h
      · right
        constructor <;> simp
      · exact .inl h
    · right
      omega

/-- Consecutive writes leave every cell outside the range alone. -/
theorem read_writeUnits_outside (cs : List Byte) (m : Memory) {base j : Nat} (h : j < base ∨ base + cs.length ≤ j) :
    (Memory.writeUnits m base cs).read j = m.read j := by
  induction cs generalizing m base with
  | nil => rfl
  | cons c cs ih =>
    simp only [List.length_cons] at h
    rw [writeUnits, ih _ (by omega), read_write_other _ _ (by omega)]

/-- A read inside the range of consecutive writes gives the unit written there. -/
theorem read_writeUnits_inside (cs : List Byte) (m : Memory) {base k : Nat} (h : k < cs.length) :
    (Memory.writeUnits m base cs).read (base + k) = cs[k]? := by
  induction cs generalizing m base k with
  | nil => simp at h
  | cons c cs ih =>
    cases k with
    | zero => rw [writeUnits, Nat.add_zero, read_writeUnits_outside _ _ (by omega)]; simp
    | succ k =>
      rw [writeUnits, show base + (k + 1) = base + 1 + k by omega, ih _ (by simpa using h)]
      simp

/-- A cell below every listed index holds no value. -/
theorem read_below {m : Memory} {i : Nat} (h : ∀ c ∈ m, i < c.1) : m.read i = none := by
  induction m with
  | nil => rfl
  | cons c m ih =>
    have hc := h c List.mem_cons_self
    rw [show Memory.read (c :: m) i = if i = c.1 then some c.2 else Memory.read m i from rfl, if_neg (by omega)]
    exact ih (fun d hd => h d (List.mem_cons_of_mem _ hd))

/-- The form is canonical: two buffers in it that read alike are the same list. -/
theorem eq_of_read {m n : Memory} (hm : Memory.wf m) (hn : Memory.wf n) (h : ∀ i, m.read i = n.read i) : m = n := by
  induction m generalizing n with
  | nil =>
    cases n with
    | nil => rfl
    | cons d n => simpa [read, unlisted] using h d.1
  | cons c m ih =>
    obtain ⟨hc, hm'⟩ := List.pairwise_cons.1 hm
    cases n with
    | nil => simpa [read, unlisted] using h c.1
    | cons d n =>
      obtain ⟨hd, hn'⟩ := List.pairwise_cons.1 hn
      have e1 : ∀ i, (if i = c.1 then some c.2 else Memory.read m i) = if i = d.1 then some d.2 else Memory.read n i := h
      have hcd : c.1 = d.1 := by
        rcases Nat.lt_trichotomy c.1 d.1 with hlt | he | hlt
        · have := e1 c.1
          rw [if_pos rfl, if_neg (by omega), read_below (fun x hx => Nat.lt_trans hlt (hd x hx))] at this
          cases this
        · exact he
        · have := e1 d.1
          rw [if_pos rfl, if_neg (by omega), read_below (fun x hx => Nat.lt_trans hlt (hc x hx))] at this
          cases this
      have hv : c.2 = d.2 := by simpa [hcd] using e1 c.1
      have : m = n := by
        refine ih hm' hn' (fun i => ?_)
        by_cases hi : i = c.1
        · rw [hi, read_below hc, hcd, read_below hd]
        · have := e1 i
          rwa [if_neg hi, if_neg (by omega)] at this
      rw [this, show c = d from Prod.ext hcd hv]

end Memory

end Sys2Proof.Machine
end

