-- ==== Sys2Proof/Laws/PerInstr.lean ====
section
/-! SUPPORT. Statements made of every instruction as syntax, one lemma per constructor. -/

open Sys2Proof Sys2Proof.Machine

/-- The instruction's word fits the width the opcode table gives it, the table word decodes to the instruction, and an 8-bit word
is the Alphabet's code of the value (R79, R100). -/
def Sys2Proof.Laws.TableRow.Statement (i : Instr) : Prop :=
  i.wf = true ∧ (encode i).toNat < 2 ^ i.width ∧ decodeTableWord i.width (encode i).toNat = some i ∧
    (i.symValue.map alphabet = if i.width = 8 then some (encode i) else none)

theorem Sys2Proof.Laws.TableRow.nop : Sys2Proof.Laws.TableRow.Statement .nop := by
  unfold Sys2Proof.Laws.TableRow.Statement; decide

theorem Sys2Proof.Laws.TableRow.enc : Sys2Proof.Laws.TableRow.Statement .enc := by
  unfold Sys2Proof.Laws.TableRow.Statement; decide

theorem Sys2Proof.Laws.TableRow.dec : Sys2Proof.Laws.TableRow.Statement .dec := by
  unfold Sys2Proof.Laws.TableRow.Statement; decide

theorem Sys2Proof.Laws.TableRow.symY : Sys2Proof.Laws.TableRow.Statement .symY := by
  unfold Sys2Proof.Laws.TableRow.Statement; decide

theorem Sys2Proof.Laws.TableRow.symB : Sys2Proof.Laws.TableRow.Statement .symB := by
  unfold Sys2Proof.Laws.TableRow.Statement; decide

theorem Sys2Proof.Laws.TableRow.symN : Sys2Proof.Laws.TableRow.Statement .symN := by
  unfold Sys2Proof.Laws.TableRow.Statement; decide

theorem Sys2Proof.Laws.TableRow.symD : Sys2Proof.Laws.TableRow.Statement .symD := by
  unfold Sys2Proof.Laws.TableRow.Statement; decide

theorem Sys2Proof.Laws.TableRow.symR : Sys2Proof.Laws.TableRow.Statement .symR := by
  unfold Sys2Proof.Laws.TableRow.Statement; decide

theorem Sys2Proof.Laws.TableRow.symF : Sys2Proof.Laws.TableRow.Statement .symF := by
  unfold Sys2Proof.Laws.TableRow.Statement; decide

theorem Sys2Proof.Laws.TableRow.symG : Sys2Proof.Laws.TableRow.Statement .symG := by
  unfold Sys2Proof.Laws.TableRow.Statement; decide

theorem Sys2Proof.Laws.TableRow.sym8 : Sys2Proof.Laws.TableRow.Statement .sym8 := by
  unfold Sys2Proof.Laws.TableRow.Statement; decide

theorem Sys2Proof.Laws.TableRow.symE : Sys2Proof.Laws.TableRow.Statement .symE := by
  unfold Sys2Proof.Laws.TableRow.Statement; decide

theorem Sys2Proof.Laws.TableRow.symJ : Sys2Proof.Laws.TableRow.Statement .symJ := by
  unfold Sys2Proof.Laws.TableRow.Statement; decide

theorem Sys2Proof.Laws.TableRow.symK : Sys2Proof.Laws.TableRow.Statement .symK := by
  unfold Sys2Proof.Laws.TableRow.Statement; decide

theorem Sys2Proof.Laws.TableRow.symM : Sys2Proof.Laws.TableRow.Statement .symM := by
  unfold Sys2Proof.Laws.TableRow.Statement; decide

theorem Sys2Proof.Laws.TableRow.symC : Sys2Proof.Laws.TableRow.Statement .symC := by
  unfold Sys2Proof.Laws.TableRow.Statement; decide

theorem Sys2Proof.Laws.TableRow.symP : Sys2Proof.Laws.TableRow.Statement .symP := by
  unfold Sys2Proof.Laws.TableRow.Statement; decide

theorem Sys2Proof.Laws.TableRow.symQ : Sys2Proof.Laws.TableRow.Statement .symQ := by
  unfold Sys2Proof.Laws.TableRow.Statement; decide

theorem Sys2Proof.Laws.TableRow.symX : Sys2Proof.Laws.TableRow.Statement .symX := by
  unfold Sys2Proof.Laws.TableRow.Statement; decide

theorem Sys2Proof.Laws.TableRow.symO : Sys2Proof.Laws.TableRow.Statement .symO := by
  unfold Sys2Proof.Laws.TableRow.Statement; decide

theorem Sys2Proof.Laws.TableRow.symT : Sys2Proof.Laws.TableRow.Statement .symT := by
  unfold Sys2Proof.Laws.TableRow.Statement; decide

theorem Sys2Proof.Laws.TableRow.sym1 : Sys2Proof.Laws.TableRow.Statement .sym1 := by
  unfold Sys2Proof.Laws.TableRow.Statement; decide

theorem Sys2Proof.Laws.TableRow.symU : Sys2Proof.Laws.TableRow.Statement .symU := by
  unfold Sys2Proof.Laws.TableRow.Statement; decide

theorem Sys2Proof.Laws.TableRow.symW : Sys2Proof.Laws.TableRow.Statement .symW := by
  unfold Sys2Proof.Laws.TableRow.Statement; decide

theorem Sys2Proof.Laws.TableRow.symI : Sys2Proof.Laws.TableRow.Statement .symI := by
  unfold Sys2Proof.Laws.TableRow.Statement; decide

theorem Sys2Proof.Laws.TableRow.symS : Sys2Proof.Laws.TableRow.Statement .symS := by
  unfold Sys2Proof.Laws.TableRow.Statement; decide

theorem Sys2Proof.Laws.TableRow.symZ : Sys2Proof.Laws.TableRow.Statement .symZ := by
  unfold Sys2Proof.Laws.TableRow.Statement; decide

theorem Sys2Proof.Laws.TableRow.symA : Sys2Proof.Laws.TableRow.Statement .symA := by
  unfold Sys2Proof.Laws.TableRow.Statement; decide

theorem Sys2Proof.Laws.TableRow.sym3 : Sys2Proof.Laws.TableRow.Statement .sym3 := by
  unfold Sys2Proof.Laws.TableRow.Statement; decide

theorem Sys2Proof.Laws.TableRow.sym4 : Sys2Proof.Laws.TableRow.Statement .sym4 := by
  unfold Sys2Proof.Laws.TableRow.Statement; decide

theorem Sys2Proof.Laws.TableRow.sym5 : Sys2Proof.Laws.TableRow.Statement .sym5 := by
  unfold Sys2Proof.Laws.TableRow.Statement; decide

theorem Sys2Proof.Laws.TableRow.symH : Sys2Proof.Laws.TableRow.Statement .symH := by
  unfold Sys2Proof.Laws.TableRow.Statement; decide

theorem Sys2Proof.Laws.TableRow.sym7 : Sys2Proof.Laws.TableRow.Statement .sym7 := by
  unfold Sys2Proof.Laws.TableRow.Statement; decide

theorem Sys2Proof.Laws.TableRow.sym6 : Sys2Proof.Laws.TableRow.Statement .sym6 := by
  unfold Sys2Proof.Laws.TableRow.Statement; decide

theorem Sys2Proof.Laws.TableRow.sym9 : Sys2Proof.Laws.TableRow.Statement .sym9 := by
  unfold Sys2Proof.Laws.TableRow.Statement; decide
end

