-- ==== Sys2Proof/Laws/State.lean ====
section
/-! SUPPORT. Beside State: one lemma per field per update, each true by rfl, so that no later proof unfolds an update. -/

namespace Sys2Proof.Machine

/-! ### Writing `ENC.LEN` -/

@[simp] theorem setLen_enc_enc (s : State) (n : Nat) : (s.setLen .enc n).enc = { s.enc with len := n } := rfl
@[simp] theorem setLen_enc_dec (s : State) (n : Nat) : (s.setLen .enc n).dec = s.dec := rfl
@[simp] theorem setLen_enc_script (s : State) (n : Nat) : (s.setLen .enc n).script = s.script := rfl
@[simp] theorem setLen_enc_turns (s : State) (n : Nat) : (s.setLen .enc n).turns = s.turns := rfl
@[simp] theorem setLen_enc_tick (s : State) (n : Nat) : (s.setLen .enc n).tick = s.tick := rfl
@[simp] theorem setLen_enc_replies (s : State) (n : Nat) : (s.setLen .enc n).replies = s.replies := rfl

/-! ### Writing `DEC.LEN` -/

@[simp] theorem setLen_dec_enc (s : State) (n : Nat) : (s.setLen .dec n).enc = s.enc := rfl
@[simp] theorem setLen_dec_dec (s : State) (n : Nat) : (s.setLen .dec n).dec = { s.dec with len := n } := rfl
@[simp] theorem setLen_dec_script (s : State) (n : Nat) : (s.setLen .dec n).script = s.script := rfl
@[simp] theorem setLen_dec_turns (s : State) (n : Nat) : (s.setLen .dec n).turns = s.turns := rfl
@[simp] theorem setLen_dec_tick (s : State) (n : Nat) : (s.setLen .dec n).tick = s.tick := rfl
@[simp] theorem setLen_dec_replies (s : State) (n : Nat) : (s.setLen .dec n).replies = s.replies := rfl

/-! ### Replacing a buffer -/

@[simp] theorem setBuffer_encIn_enc (s : State) (m : Memory) : (s.setBuffer .encIn m).enc = { s.enc with inp := m } := rfl
@[simp] theorem setBuffer_encIn_dec (s : State) (m : Memory) : (s.setBuffer .encIn m).dec = s.dec := rfl
@[simp] theorem setBuffer_encIn_script (s : State) (m : Memory) : (s.setBuffer .encIn m).script = s.script := rfl
@[simp] theorem setBuffer_encIn_turns (s : State) (m : Memory) : (s.setBuffer .encIn m).turns = s.turns := rfl
@[simp] theorem setBuffer_encIn_tick (s : State) (m : Memory) : (s.setBuffer .encIn m).tick = s.tick := rfl
@[simp] theorem setBuffer_encIn_replies (s : State) (m : Memory) : (s.setBuffer .encIn m).replies = s.replies := rfl

/-! ### Replacing `ENC.OUT` -/

@[simp] theorem setBuffer_encOut_enc (s : State) (m : Memory) : (s.setBuffer .encOut m).enc = { s.enc with out := m } := rfl
@[simp] theorem setBuffer_encOut_dec (s : State) (m : Memory) : (s.setBuffer .encOut m).dec = s.dec := rfl
@[simp] theorem setBuffer_encOut_script (s : State) (m : Memory) : (s.setBuffer .encOut m).script = s.script := rfl
@[simp] theorem setBuffer_encOut_turns (s : State) (m : Memory) : (s.setBuffer .encOut m).turns = s.turns := rfl
@[simp] theorem setBuffer_encOut_tick (s : State) (m : Memory) : (s.setBuffer .encOut m).tick = s.tick := rfl
@[simp] theorem setBuffer_encOut_replies (s : State) (m : Memory) : (s.setBuffer .encOut m).replies = s.replies := rfl

/-! ### Replacing `DEC.IN` -/

@[simp] theorem setBuffer_decIn_enc (s : State) (m : Memory) : (s.setBuffer .decIn m).enc = s.enc := rfl
@[simp] theorem setBuffer_decIn_dec (s : State) (m : Memory) : (s.setBuffer .decIn m).dec = { s.dec with inp := m } := rfl
@[simp] theorem setBuffer_decIn_script (s : State) (m : Memory) : (s.setBuffer .decIn m).script = s.script := rfl
@[simp] theorem setBuffer_decIn_turns (s : State) (m : Memory) : (s.setBuffer .decIn m).turns = s.turns := rfl
@[simp] theorem setBuffer_decIn_tick (s : State) (m : Memory) : (s.setBuffer .decIn m).tick = s.tick := rfl
@[simp] theorem setBuffer_decIn_replies (s : State) (m : Memory) : (s.setBuffer .decIn m).replies = s.replies := rfl

/-! ### Replacing `DEC.OUT` -/

@[simp] theorem setBuffer_decOut_enc (s : State) (m : Memory) : (s.setBuffer .decOut m).enc = s.enc := rfl
@[simp] theorem setBuffer_decOut_dec (s : State) (m : Memory) : (s.setBuffer .decOut m).dec = { s.dec with out := m } := rfl
@[simp] theorem setBuffer_decOut_script (s : State) (m : Memory) : (s.setBuffer .decOut m).script = s.script := rfl
@[simp] theorem setBuffer_decOut_turns (s : State) (m : Memory) : (s.setBuffer .decOut m).turns = s.turns := rfl
@[simp] theorem setBuffer_decOut_tick (s : State) (m : Memory) : (s.setBuffer .decOut m).tick = s.tick := rfl
@[simp] theorem setBuffer_decOut_replies (s : State) (m : Memory) : (s.setBuffer .decOut m).replies = s.replies := rfl

/-! ### Answering a read -/

@[simp] theorem reply_enc (s : State) (r : Reply) : (reply r s).enc = s.enc := rfl
@[simp] theorem reply_dec (s : State) (r : Reply) : (reply r s).dec = s.dec := rfl
@[simp] theorem reply_script (s : State) (r : Reply) : (reply r s).script = s.script := rfl
@[simp] theorem reply_turns (s : State) (r : Reply) : (reply r s).turns = s.turns := rfl
@[simp] theorem reply_tick (s : State) (r : Reply) : (reply r s).tick = s.tick := rfl
@[simp] theorem reply_replies (s : State) (r : Reply) : (reply r s).replies = r :: s.replies := rfl

/-! ### Raising an error -/

@[simp] theorem raiseMalformed_enc (s : State) (c : Cause) : (raiseMalformed c s).enc = s.enc := rfl
@[simp] theorem raiseMalformed_dec (s : State) (c : Cause) : (raiseMalformed c s).dec = { s.dec with err := .malformed c, olen := 0, st := .error } := rfl
@[simp] theorem raiseMalformed_script (s : State) (c : Cause) : (raiseMalformed c s).script = s.script := rfl
@[simp] theorem raiseMalformed_turns (s : State) (c : Cause) : (raiseMalformed c s).turns = s.turns := rfl
@[simp] theorem raiseMalformed_tick (s : State) (c : Cause) : (raiseMalformed c s).tick = s.tick := rfl
@[simp] theorem raiseMalformed_replies (s : State) (c : Cause) : (raiseMalformed c s).replies = s.replies := rfl

/-! ### Entering BUSY -/

@[simp] theorem enterBusy_enc (s : State)  : (enterBusy s).enc = s.enc := rfl
@[simp] theorem enterBusy_dec (s : State)  : (enterBusy s).dec = { s.dec with err := .none, st := .busy } := rfl
@[simp] theorem enterBusy_script (s : State)  : (enterBusy s).script = s.script := rfl
@[simp] theorem enterBusy_turns (s : State)  : (enterBusy s).turns = s.turns := rfl
@[simp] theorem enterBusy_tick (s : State)  : (enterBusy s).tick = s.tick := rfl
@[simp] theorem enterBusy_replies (s : State)  : (enterBusy s).replies = s.replies := rfl

/-! ### Reset -/

@[simp] theorem execReset_enc (s : State)  : (execReset s).enc = State.reset.enc := rfl
@[simp] theorem execReset_dec (s : State)  : (execReset s).dec = State.reset.dec := rfl
@[simp] theorem execReset_script (s : State)  : (execReset s).script = s.script := rfl
@[simp] theorem execReset_turns (s : State)  : (execReset s).turns = s.turns := rfl
@[simp] theorem execReset_tick (s : State)  : (execReset s).tick = s.tick := rfl
@[simp] theorem execReset_replies (s : State)  : (execReset s).replies = s.replies := rfl

/-! ### ENC.FINISH -/

@[simp] theorem encFinish_enc (s : State)  : (encFinish s).enc = { s.enc with olen := 8 * s.enc.grp, st := .done } := rfl
@[simp] theorem encFinish_dec (s : State)  : (encFinish s).dec = s.dec := rfl
@[simp] theorem encFinish_script (s : State)  : (encFinish s).script = s.script := rfl
@[simp] theorem encFinish_turns (s : State)  : (encFinish s).turns = s.turns := rfl
@[simp] theorem encFinish_tick (s : State)  : (encFinish s).tick = s.tick := rfl
@[simp] theorem encFinish_replies (s : State)  : (encFinish s).replies = s.replies := rfl

/-! ### DEC.FINISH -/

@[simp] theorem decFinish_enc (s : State)  : (decFinish s).enc = s.enc := rfl
@[simp] theorem decFinish_dec (s : State)  : (decFinish s).dec = { s.dec with olen := 5 * s.dec.grp, st := .done } := rfl
@[simp] theorem decFinish_script (s : State)  : (decFinish s).script = s.script := rfl
@[simp] theorem decFinish_turns (s : State)  : (decFinish s).turns = s.turns := rfl
@[simp] theorem decFinish_tick (s : State)  : (decFinish s).tick = s.tick := rfl
@[simp] theorem decFinish_replies (s : State)  : (decFinish s).replies = s.replies := rfl

/-! ### The end of a good DEC.GROUP -/

@[simp] theorem decCommit_enc (s : State)  : (decCommit s).enc = s.enc := rfl
@[simp] theorem decCommit_dec (s : State)  : (decCommit s).dec = { s.dec with out := s.dec.out.writeUnits (5 * s.dec.grp) (unpack40 s.dec.acc), grp := s.dec.grp + 1 } := rfl
@[simp] theorem decCommit_script (s : State)  : (decCommit s).script = s.script := rfl
@[simp] theorem decCommit_turns (s : State)  : (decCommit s).turns = s.turns := rfl
@[simp] theorem decCommit_tick (s : State)  : (decCommit s).tick = s.tick := rfl
@[simp] theorem decCommit_replies (s : State)  : (decCommit s).replies = s.replies := rfl

/-! ### Reading registers and buffers by name -/

@[simp] theorem st_enc (s : State) : s.st .enc = s.enc.st := rfl
@[simp] theorem st_dec (s : State) : s.st .dec = s.dec.st := rfl
@[simp] theorem len_enc (s : State) : s.len .enc = s.enc.len := rfl
@[simp] theorem len_dec (s : State) : s.len .dec = s.dec.len := rfl
@[simp] theorem grp_enc (s : State) : s.grp .enc = s.enc.grp := rfl
@[simp] theorem grp_dec (s : State) : s.grp .dec = s.dec.grp := rfl
@[simp] theorem olen_enc (s : State) : s.olen .enc = s.enc.olen := rfl
@[simp] theorem olen_dec (s : State) : s.olen .dec = s.dec.olen := rfl
@[simp] theorem memRead_encIn (i : Nat) (s : State) : memRead .encIn i s = s.enc.inp.read i := rfl
@[simp] theorem memRead_encOut (i : Nat) (s : State) : memRead .encOut i s = s.enc.out.read i := rfl
@[simp] theorem memRead_decIn (i : Nat) (s : State) : memRead .decIn i s = s.dec.inp.read i := rfl
@[simp] theorem memRead_decOut (i : Nat) (s : State) : memRead .decOut i s = s.dec.out.read i := rfl
@[simp] theorem inSpace_enc : inSpace .enc = .encIn := rfl
@[simp] theorem outSpace_enc : outSpace .enc = .encOut := rfl
@[simp] theorem inSpace_dec : inSpace .dec = .decIn := rfl
@[simp] theorem outSpace_dec : outSpace .dec = .decOut := rfl

/-- The memory of the state after reset is in canonical form, and no cell of it holds a value (R34). -/
theorem reset_buffers_wf (sp : Space) : Memory.wf (State.reset.buffer sp) := by cases sp <;> exact List.Pairwise.nil

end Sys2Proof.Machine
end

