-- ==== Sys2Proof/Laws/Step.lean ====
section
/-! SUPPORT. What each shared operation and each agent's turn can do, said once; later proofs cite these and do not unfold. -/

namespace Sys2Proof.Machine

/-! ### Decoding and symbols -/

/-- The unit decoder and the Reverse table agree on one unit. -/
def unitAgrees (c : Byte) : Bool :=
  match decodeUnit c, rev c with
  | .ok i, some v    => i.symValue == some v
  | .error _, none   => true
  | _, _             => false

theorem unitAgrees_all : ∀ c : Byte, unitAgrees c = true := by decide +kernel

/-- A unit that decodes is a symbol with the value the Reverse table gives. -/
theorem rev_of_decodeUnit {c : Byte} {i : Instr} (h : decodeUnit c = .ok i) : ∃ v, rev c = some v ∧ i.symValue = some v := by
  have k := unitAgrees_all c
  unfold unitAgrees at k
  rw [h] at k
  cases hr : rev c with
  | none => simp [hr] at k
  | some v => exact ⟨v, rfl, by simpa [hr] using k⟩

/-- A unit that does not decode is foreign. -/
theorem rev_of_decodeUnit_error {c : Byte} {e : DecodeError} (h : decodeUnit c = .error e) : rev c = none := by
  have k := unitAgrees_all c
  unfold unitAgrees at k
  rw [h] at k
  cases hr : rev c with
  | none => rfl
  | some v => simp [hr] at k

/-- An instruction with a value is a symbol, and executing it folds that value: every one of the 32. -/
theorem exec_of_symValue {i : Instr} {v : Val5} (h : i.symValue = some v) (s : State) : exec i s = foldSymbol v s := by
  cases i <;> simp only [Instr.symValue, Option.some.injEq, reduceCtorEq] at h <;> subst h <;> rfl

/-- What executing any instruction can do, when it answers a next state. -/
theorem exec_cases {i : Instr} {s t : State} (h : exec i s = .next t) :
    (i = .nop ∧ t = s) ∨
    (i = .enc ∧ s.enc.st ≠ .busy ∧ t = { s with enc := { s.enc with grp := 0, olen := 0, st := .busy } }) ∨
    (i = .dec ∧ s.dec.st ≠ .busy ∧ s.dec.len % 8 ≠ 0 ∧
      t = { s with dec := { s.dec with grp := 0, olen := 0, err := .malformed .length, st := .error } }) ∨
    (i = .dec ∧ s.dec.st ≠ .busy ∧ s.dec.len % 8 = 0 ∧
      t = { s with dec := { s.dec with grp := 0, olen := 0, err := .none, st := .busy } }) ∨
    (∃ v, i.symValue = some v ∧ t = { s with dec := { s.dec with acc := foldStep s.dec.acc v } }) := by
  cases hv : i.symValue with
  | some v =>
    rw [exec_of_symValue hv] at h
    exact .inr (.inr (.inr (.inr ⟨v, rfl, by cases h; rfl⟩)))
  | none =>
    have hi : i = .nop ∨ i = .enc ∨ i = .dec := by cases i <;> simp_all [Instr.symValue]
    rcases hi with rfl | rfl | rfl
    · exact .inl ⟨rfl, by cases h; rfl⟩
    · have h : execEnc s = .next t := h
      unfold execEnc at h
      split at h
      · cases h
      · cases h
        exact .inr (.inl ⟨rfl, ‹_›, rfl⟩)
    · have h : execDec s = .next t := h
      unfold execDec at h
      split at h
      · cases h
      · dsimp only at h
        split at h <;> cases h
        · exact .inr (.inr (.inl ⟨rfl, ‹_›, ‹_›, rfl⟩))
        · exact .inr (.inr (.inr (.inl ⟨rfl, ‹_›, by omega, rfl⟩)))

/-! ### The engines -/

/-- The five operand bytes are the padded reads. -/
theorem encOperands_eq {s : State} {g : Nat} {b0 b1 b2 b3 b4 : Byte} (h : encOperands s g = some (b0, b1, b2, b3, b4)) :
    inb s (5 * g) = some b0 ∧ inb s (5 * g + 1) = some b1 ∧ inb s (5 * g + 2) = some b2 ∧ inb s (5 * g + 3) = some b3 ∧
      inb s (5 * g + 4) = some b4 := by
  unfold encOperands at h
  split at h
  · simp_all
  · cases h

/-- What ENC's turn can do, when it answers a next state. -/
theorem encTurn_cases {s t : State} (h : encTurn s = .next t) :
    (s.enc.st ≠ .busy ∧ t = s) ∨
    (s.enc.st = .busy ∧ s.enc.len ≤ 5 * s.enc.grp ∧ t = encFinish s) ∨
    (s.enc.st = .busy ∧ 5 * s.enc.grp < s.enc.len ∧ ∃ b0 b1 b2 b3 b4,
      encOperands s s.enc.grp = some (b0, b1, b2, b3, b4) ∧
      t = { s with enc := { s.enc with
            out := s.enc.out.writeUnits (8 * s.enc.grp) (quantumOf (pack40 b0 b1 b2 b3 b4)),
            acc := pack40 b0 b1 b2 b3 b4, grp := s.enc.grp + 1 } }) := by
  unfold encTurn at h
  split at h
  · split at h
    · unfold encGroup at h
      split at h
      · cases h
      · cases h
        exact .inr (.inr ⟨‹_›, ‹_›, _, _, _, _, _, ‹_›, rfl⟩)
    · cases h
      exact .inr (.inl ⟨‹_›, by omega, rfl⟩)
  · cases h
    exact .inl ⟨‹_›, rfl⟩

/-- The loop of DEC.GROUP: either every unit is a symbol and their values are folded in order, or the first unit that is none
ends the step with the DIGIT error on the state before it. -/
theorem decLoop_cases {s : State} (cs : List Byte) {u t : State} (h : decLoop s cs u = .next t) :
    (∃ vs, cs.mapM rev = some vs ∧
      t = decCommit { u with dec := { u.dec with acc := vs.foldl foldStep u.dec.acc } }) ∨
    ((∃ c ∈ cs, rev c = none) ∧ t = raiseMalformed .digit s) := by
  induction cs generalizing u with
  | nil =>
    cases h
    exact .inl ⟨[], rfl, rfl⟩
  | cons c cs ih =>
    unfold decLoop at h
    split at h
    · rename_i e he
      cases h
      exact .inr ⟨⟨c, List.mem_cons_self, rev_of_decodeUnit_error he⟩, rfl⟩
    · rename_i ins hi
      obtain ⟨v, hr, hv⟩ := rev_of_decodeUnit hi
      rw [exec_of_symValue hv] at h
      rcases ih h with ⟨vs, h1, h2⟩ | ⟨⟨d, hd, h1⟩, h2⟩
      · left
        refine ⟨v :: vs, ?_, h2⟩
        rw [List.mapM_cons, hr, h1]
        rfl
      · exact .inr ⟨⟨d, List.mem_cons_of_mem _ hd, h1⟩, h2⟩

/-- What DEC's turn can do, when it answers a next state. -/
theorem decTurn_cases {s t : State} (h : decTurn s = .next t) :
    (s.dec.st ≠ .busy ∧ t = s) ∨
    (s.dec.st = .busy ∧ s.dec.len ≤ 8 * s.dec.grp ∧ t = decFinish s) ∨
    (s.dec.st = .busy ∧ 8 * s.dec.grp < s.dec.len ∧ ∃ cs vs,
      decOperands s s.dec.grp = some cs ∧ cs.mapM rev = some vs ∧
      t = { s with dec := { s.dec with
            out := s.dec.out.writeUnits (5 * s.dec.grp) (unpack40 (fold40 vs)),
            acc := fold40 vs, grp := s.dec.grp + 1 } }) ∨
    (s.dec.st = .busy ∧ 8 * s.dec.grp < s.dec.len ∧
      (∃ cs, decOperands s s.dec.grp = some cs ∧ ∃ c ∈ cs, rev c = none) ∧ t = raiseMalformed .digit s) := by
  unfold decTurn at h
  split at h
  · split at h
    · unfold decGroup at h
      split at h
      · cases h
      · rename_i cs hcs
        rcases decLoop_cases _ h with ⟨vs, h1, h2⟩ | ⟨h1, h2⟩
        · exact .inr (.inr (.inl ⟨‹_›, ‹_›, cs, vs, hcs, h1, h2⟩))
        · exact .inr (.inr (.inr ⟨‹_›, ‹_›, ⟨cs, hcs, h1⟩, h2⟩))
    · cases h
      exact .inr (.inl ⟨‹_›, by omega, rfl⟩)
  · cases h
    exact .inl ⟨‹_›, rfl⟩

/-! ### The host -/

/-- What one host action can do, when it answers a next state: it resets, runs a command, writes a length or an input cell of
an engine that is not BUSY, or only changes the model's own fields. -/
theorem hostAct_cases {a : HostAct} {s t : State} (h : hostAct a s = .next t) :
    (a = .rst ∧ t = execReset s) ∨
    (∃ w i, a = .writeCmd w ∧ decodeCmd w = .ok i ∧ exec i s = .next t) ∨
    (∃ x n, a = .writeLen x n ∧ s.st x ≠ .busy ∧ t = s.setLen x n) ∨
    (∃ x i v, a = .writeIn x i v ∧ s.st x ≠ .busy ∧ t = memWrite (inSpace x) i v s) ∨
    ((∃ x, a = .read x ∧ t = { reply (.st x (s.st x).code) s with script := readRest s x ++ s.script }) ∨
      (∃ x, a = .wait x ∧ (t = reply (.st x (s.st x).code) s ∨ t = { reply (.st x (s.st x).code) s with script := .wait x :: s.script })) ∨
      (∃ v us, a = .submit v ∧ normalizeValue v = .ok us ∧ t = { s with script := operate .dec us ++ s.script }) ∨
      (∃ r, t = reply r s)) := by
  cases a with
  | rst => cases h; exact .inl ⟨rfl, rfl⟩
  | writeCmd w =>
    simp only [hostAct] at h
    split at h
    · exact .inr (.inl ⟨w, _, rfl, ‹_›, h⟩)
    · cases h
  | readCmd => cases h
  | writeLen x n =>
    simp only [hostAct] at h
    split at h <;> cases h
    exact .inr (.inr (.inl ⟨x, n, rfl, ‹_›, rfl⟩))
  | readLen x =>
    simp only [hostAct] at h
    split at h <;> cases h
    exact .inr (.inr (.inr (.inr (.inr (.inr (.inr ⟨_, rfl⟩))))))
  | writeIn x i v =>
    simp only [hostAct] at h
    split at h <;> cases h
    exact .inr (.inr (.inr (.inl ⟨x, i, v, rfl, ‹_›, rfl⟩)))
  | readIn x i =>
    simp only [hostAct] at h
    split at h
    · cases h
    · split at h <;> cases h
      exact .inr (.inr (.inr (.inr (.inr (.inr (.inr ⟨_, rfl⟩))))))
  | readSt x => cases h; exact .inr (.inr (.inr (.inr (.inr (.inr (.inr ⟨_, rfl⟩))))))
  | readErr =>
    simp only [hostAct] at h
    split at h <;> cases h
    exact .inr (.inr (.inr (.inr (.inr (.inr (.inr ⟨_, rfl⟩))))))
  | readOlen x =>
    simp only [hostAct] at h
    split at h <;> cases h
    exact .inr (.inr (.inr (.inr (.inr (.inr (.inr ⟨_, rfl⟩))))))
  | readOut x i =>
    simp only [hostAct] at h
    split at h
    · split at h <;> cases h
      exact .inr (.inr (.inr (.inr (.inr (.inr (.inr ⟨_, rfl⟩))))))
    · cases h
  | wait x =>
    simp only [hostAct] at h
    split at h <;> cases h
    · exact .inr (.inr (.inr (.inr (.inr (.inl ⟨x, rfl, .inr rfl⟩)))))
    · exact .inr (.inr (.inr (.inr (.inr (.inl ⟨x, rfl, .inl rfl⟩)))))
  | read x => cases h; exact .inr (.inr (.inr (.inr (.inl ⟨x, rfl, rfl⟩))))
  | submit v =>
    simp only [hostAct] at h
    split at h <;> cases h
    · exact .inr (.inr (.inr (.inr (.inr (.inr (.inl ⟨v, _, rfl, ‹_›, rfl⟩))))))
    · exact .inr (.inr (.inr (.inr (.inr (.inr (.inr ⟨_, rfl⟩))))))

/-- What the host's turn can do, when it answers a next state. -/
theorem hostTurn_cases {s t : State} (h : hostTurn s = .next t) :
    (s.script = [] ∧ t = s) ∨ (∃ a rest, s.script = a :: rest ∧ hostAct a { s with script := rest } = .next t) := by
  unfold hostTurn at h
  split at h
  · cases h
    exact .inl ⟨‹_›, rfl⟩
  · exact .inr ⟨_, _, ‹_›, h⟩

/-! ### One step -/

/-- Taking a turn changes nothing but the model's own `turns` and `tick`. -/
theorem takeTurn_frame (s : State) :
    (takeTurn s).2.enc = s.enc ∧ (takeTurn s).2.dec = s.dec ∧ (takeTurn s).2.script = s.script ∧
      (takeTurn s).2.replies = s.replies := by
  unfold takeTurn
  split <;> exact ⟨rfl, rfl, rfl, rfl⟩

/-- A step is one agent's turn. -/
theorem step_eq (s : State) : step s = agentTurn (takeTurn s).1 (takeTurn s).2 := rfl

/-- What one step can do: it is the turn of the host, of ENC or of DEC, after the turn has been taken. -/
theorem step_cases {s t : State} (h : step s = .next t) :
    ((takeTurn s).1 = .host ∧ hostTurn (takeTurn s).2 = .next t) ∨
    ((takeTurn s).1 = .enc ∧ encTurn (takeTurn s).2 = .next t) ∨
    ((takeTurn s).1 = .dec ∧ decTurn (takeTurn s).2 = .next t) := by
  rw [step_eq] at h
  cases ha : (takeTurn s).1 <;> rw [ha] at h
  · exact .inl ⟨rfl, h⟩
  · exact .inr (.inl ⟨rfl, h⟩)
  · exact .inr (.inr ⟨rfl, h⟩)

end Sys2Proof.Machine
end

