-- ==== Sys2Proof/Laws/Runs.lean ====
section
/-! SUPPORT. Forward lemmas: what the shared operations answer, and how runs compose. The lemmas of Laws/Step.lean take an answer
apart; these build one. -/

namespace Sys2Proof.Machine

/-! ### Buffers as address spaces -/

theorem memRead_memWrite (s : State) (sp sp' : Space) (i j : Nat) (v : Byte) :
    memRead sp' j (memWrite sp i v s) = if sp' = sp ∧ j = i then some v else memRead sp' j s := by
  cases sp <;> cases sp' <;> simp [memRead, memWrite, State.buffer, State.setBuffer, Memory.read_write]

theorem memRead_memWriteUnits (s : State) (sp sp' : Space) (base : Nat) (cs : List Byte) (j : Nat) :
    memRead sp' j (memWriteUnits sp base cs s) =
      if sp' = sp then ((s.buffer sp).writeUnits base cs).read j else memRead sp' j s := by
  cases sp <;> cases sp' <;> simp [memRead, memWriteUnits, State.buffer, State.setBuffer]

/-! ### Words and lists -/

/-- Joining two words, as numbers. -/
theorem append_toNat {m n : Nat} (a : BitVec m) (b : BitVec n) : (a ++ b).toNat = a.toNat * 2 ^ n + b.toNat := by
  rw [BitVec.toNat_append, ← Nat.shiftLeft_add_eq_or_of_lt b.isLt, Nat.shiftLeft_eq]

/-- One fold, as numbers. -/
theorem foldStep_toNat (a : GroupWord) (v : Val5) : (foldStep a v).toNat = (a.toNat * 32 + v.toNat) % 2 ^ 40 := by
  unfold foldStep
  rw [BitVec.toNat_add, BitVec.toNat_shiftLeft, BitVec.toNat_setWidth, Nat.shiftLeft_eq]
  have := v.isLt
  omega

/-- Two functions that agree on a list map it alike. -/
theorem mapM_congr_mem {α β : Type} (l : List α) (f g : α → Option β) (h : ∀ a ∈ l, f a = g a) : l.mapM f = l.mapM g := by
  induction l with
  | nil => rfl
  | cons a l ih =>
    rw [List.mapM_cons, List.mapM_cons, h a List.mem_cons_self, ih (fun b hb => h b (List.mem_cons_of_mem _ hb))]

/-- The eight indices of a quantum, written out. -/
theorem quantumIndices_eq (g : Nat) :
    quantumIndices g = [8 * g, 8 * g + 1, 8 * g + 2, 8 * g + 3, 8 * g + 4, 8 * g + 5, 8 * g + 6, 8 * g + 7] := by
  simp [quantumIndices, List.range']

/-- The length of a padded input. -/
theorem pad5_length (b : List Byte) : (pad5 b).length = 5 * ((b.length + 4) / 5) := by
  rw [pad5, List.length_append, List.length_replicate]
  omega

/-- One cell of a padded input. -/
theorem pad5_getElem? (b : List Byte) (i : Nat) (h : i < 5 * ((b.length + 4) / 5)) :
    (pad5 b)[i]? = if i < b.length then b[i]? else some 0 := by
  rw [pad5]
  split
  · rw [List.getElem?_append_left ‹_›]
  · rw [List.getElem?_append_right (by omega), List.getElem?_replicate_of_lt (by omega)]

/-! ### Commands and the loop of DEC.GROUP -/

/-- The command words that decode. -/
theorem decodeCmd_cases {w : CmdWord} {i : Instr} (h : decodeCmd w = .ok i) :
    (w = 0b00 ∧ i = .nop) ∨ (w = 0b01 ∧ i = .enc) ∨ (w = 0b10 ∧ i = .dec) := by
  have k : ∀ w : CmdWord, w = 0b00 ∨ w = 0b01 ∨ w = 0b10 ∨ w = 0b11 := by decide
  rcases k w with rfl | rfl | rfl | rfl
  · cases h; exact .inl ⟨rfl, rfl⟩
  · cases h; exact .inr (.inl ⟨rfl, rfl⟩)
  · cases h; exact .inr (.inr ⟨rfl, rfl⟩)
  · cases h

/-- The loop over units that are all symbols. -/
theorem decLoop_of_symbols (s : State) (cs : List Byte) (vs : List Val5) (h : cs.mapM rev = some vs) (u : State) :
    decLoop s cs u = .next (decCommit { u with dec := { u.dec with acc := vs.foldl foldStep u.dec.acc } }) := by
  induction cs generalizing vs u with
  | nil => cases h; rfl
  | cons c cs ih =>
    rw [List.mapM_cons] at h
    cases hr : rev c with
    | none => simp [hr] at h
    | some v =>
      cases hm : cs.mapM rev with
      | none => simp [hr, hm] at h
      | some ws =>
        obtain rfl : v :: ws = vs := by simpa [hr, hm] using h
        rw [decLoop]
        cases hd : decodeUnit c with
        | error e => have := rev_of_decodeUnit_error hd; simp [hr] at this
        | ok i =>
          obtain ⟨w, h1, h2⟩ := rev_of_decodeUnit hd
          obtain rfl : v = w := by simpa [hr] using h1
          dsimp only
          rw [exec_of_symValue h2]
          exact ih ws hm _

/-- The loop over units of which one is foreign, whichever it is. -/
theorem decLoop_of_foreign (s : State) (cs : List Byte) (h : ∃ c ∈ cs, rev c = none) (u : State) :
    decLoop s cs u = .next (raiseMalformed .digit s) := by
  induction cs generalizing u with
  | nil => simp at h
  | cons c cs ih =>
    rw [decLoop]
    cases hd : decodeUnit c with
    | error e => rfl
    | ok i =>
      obtain ⟨v, hr, hv⟩ := rev_of_decodeUnit hd
      obtain ⟨d, hd', hn⟩ := h
      dsimp only
      rw [exec_of_symValue hv]
      rcases List.mem_cons.1 hd' with rfl | hd'
      · rw [hr] at hn; cases hn
      · exact ih ⟨d, hd', hn⟩ _

/-- The eight operand units are the eight cells of the quantum, in order. -/
theorem decOperands_eq_some {s : State} {g : Nat} {cs : List Byte} :
    decOperands s g = some cs ↔ cs.length = 8 ∧ ∀ k, k < 8 → memRead .decIn (8 * g + k) s = cs[k]? := by
  have key : ∀ (n a : Nat) (cs : List Byte), (List.range' a n).mapM (fun i => memRead .decIn i s) = some cs ↔
      cs.length = n ∧ ∀ k, k < n → memRead .decIn (a + k) s = cs[k]? := by
    intro n
    induction n with
    | zero =>
      intro a cs
      constructor
      · intro h; cases h; exact ⟨rfl, fun k hk => absurd hk (Nat.not_lt_zero k)⟩
      · intro h; rw [List.eq_nil_of_length_eq_zero h.1]; rfl
    | succ n ih =>
      intro a cs
      rw [List.range'_succ, List.mapM_cons]
      cases cs with
      | nil =>
        simp only [List.length_nil, Nat.right_eq_add, Nat.add_eq_zero_iff, Nat.succ_ne_self, and_false, false_and, iff_false]
        cases memRead .decIn a s <;> cases (List.range' (a + 1) n).mapM (fun i => memRead .decIn i s) <;> simp
      | cons c cs =>
        have e : (memRead .decIn a s >>= fun b => (List.range' (a + 1) n).mapM (fun i => memRead .decIn i s) >>= fun bs =>
            pure (b :: bs)) = some (c :: cs) ↔
            memRead .decIn a s = some c ∧ (List.range' (a + 1) n).mapM (fun i => memRead .decIn i s) = some cs := by
          cases memRead .decIn a s <;> cases (List.range' (a + 1) n).mapM (fun i => memRead .decIn i s) <;> simp
        rw [e, ih]
        constructor
        · rintro ⟨h0, hl, hk⟩
          refine ⟨by simp [hl], fun k hk' => ?_⟩
          cases k with
          | zero => simpa using h0
          | succ k => rw [show a + (k + 1) = a + 1 + k by omega, hk k (by omega)]; simp
        · rintro ⟨hl, hk⟩
          refine ⟨by simpa using hk 0 (by omega), by simpa using hl, fun k hk' => ?_⟩
          have := hk (k + 1) (by omega)
          rw [show a + (k + 1) = a + 1 + k by omega] at this
          simpa using this
  exact key 8 (8 * g) cs

/-- A cell of the quantum that holds no value leaves no operands. -/
theorem decOperands_eq_none {s : State} {g k : Nat} (hk : k < 8) (h : memRead .decIn (8 * g + k) s = none) :
    decOperands s g = none := by
  cases hc : decOperands s g with
  | none => rfl
  | some cs =>
    obtain ⟨hl, he⟩ := decOperands_eq_some.1 hc
    rw [he k hk, List.getElem?_eq_none_iff] at h
    omega

/-- Eight cells that hold values are eight operands. -/
theorem decOperands_isSome {s : State} {g : Nat} (h : ∀ k, k < 8 → (memRead .decIn (8 * g + k) s).isSome = true) :
    ∃ cs, decOperands s g = some cs := by
  refine ⟨(List.range 8).map (fun k => (memRead .decIn (8 * g + k) s).getD 0), decOperands_eq_some.2 ⟨by simp, fun k hk => ?_⟩⟩
  obtain ⟨c, hc⟩ := Option.isSome_iff_exists.1 (h k hk)
  rw [List.getElem?_map, List.getElem?_range hk, Option.map_some, hc, Option.getD_some]

/-! ### Runs -/

/-- The host's turn when its script is not empty. -/
theorem hostTurn_cons {s : State} {a : HostAct} {rest : List HostAct} (h : s.script = a :: rest) :
    hostTurn s = hostAct a { s with script := rest } := by
  rw [hostTurn, h]

/-- A step when the order of turns is given. -/
theorem step_of_turns {s : State} {a : Agent} {rest : List Agent} (h : s.turns = a :: rest) :
    step s = agentTurn a { s with turns := rest } := by
  rw [step, takeTurn, h]

theorem turnsOf_succ {a : Agent} {k : Nat} {s t : State} (h : agentTurn a s = .next t) :
    turnsOf a (k + 1) s = turnsOf a k t := by
  rw [turnsOf, h]

theorem turnsOf_add {a : Agent} {k m : Nat} {s t : State} (h : turnsOf a k s = .next t) :
    turnsOf a (k + m) s = turnsOf a m t := by
  induction k generalizing s with
  | zero => cases h; simp
  | succ k ih =>
    rw [Nat.succ_add]
    simp only [turnsOf] at h ⊢
    cases hs : agentTurn a s <;> rw [hs] at h
    · exact ih h
    · cases h
    · cases h

theorem steps_succ {k : Nat} {s t : State} (h : step s = .next t) : steps (k + 1) s = steps k t := by
  rw [steps, h]

theorem steps_add {k m : Nat} {s t : State} (h : steps k s = .next t) : steps (k + m) s = steps m t := by
  induction k generalizing s with
  | zero => cases h; simp
  | succ k ih =>
    rw [Nat.succ_add]
    simp only [steps] at h ⊢
    cases hs : step s <;> rw [hs] at h
    · exact ih h
    · cases h
    · cases h

end Sys2Proof.Machine
end

