-- ==== Sys2Proof/Tests/Slice0.lean ====
section
/-! SUPPORT. The model's own tests: the words of the spec's tables decode, ill-formed terms are refused, single steps give what
spec/95_test_vectors.md gives, and each statement's hypotheses are met by a concrete state. -/

open Sys2Proof Sys2Proof.Machine

namespace Sys2Proof.Tests

/-! ### Helpers -/

/-- The outcome is a next state with the property. -/
def isNext (o : Outcome) (p : State → Bool) : Bool :=
  match o with
  | .next t    => p t
  | .fault _   => false
  | .refused _ => false

/-- The outcome is this refusal. -/
def isRefused (o : Outcome) (r : Refusal) : Bool :=
  match o with
  | .next _    => false
  | .fault _   => false
  | .refused q => q == r

/-- The `n` cells of a buffer from index 0. -/
def cells (sp : Space) (n : Nat) (s : State) : List (Option Byte) := (List.range n).map (fun i => memRead sp i s)

/-- `pb1sa5dx`, and the five bytes `hello` it stands for (vectors E3, D3, S1 to S9). -/
def helloText : List Byte := [0x70, 0x62, 0x31, 0x73, 0x61, 0x35, 0x64, 0x78]
def hello : List Byte := [0x68, 0x65, 0x6C, 0x6C, 0x6F]

/-- A state with an input loaded into an engine, and everything else as after reset. -/
def loaded (x : Engine) (b : List Byte) : State := (memWriteUnits (inSpace x) 0 b State.reset).setLen x b.length

/-- The same, with ENC or DEC BUSY. -/
def encBusy (b : List Byte) : State := { loaded .enc b with enc := { (loaded .enc b).enc with st := .busy } }
def decBusy (b : List Byte) : State := { loaded .dec b with dec := { (loaded .dec b).dec with st := .busy } }

/-- After reset, the host about to move with a script. -/
def hostNext (script : List HostAct) : State := { State.reset with script := script, turns := [.host] }

/-- ENC DONE with the encoding of `hello`, DEC DONE with the decoding of `pb1sa5dx` (after S3, S9). -/
def bothDone : State := { State.reset with
  enc := { st := .done, len := 5, grp := 1, acc := 0x68656C6C6F, olen := 8,
           inp := Memory.writeUnits [] 0 hello, out := Memory.writeUnits [] 0 helloText }
  dec := { st := .done, len := 8, grp := 1, acc := 0x68656C6C6F, olen := 5, err := .none,
           inp := Memory.writeUnits [] 0 helloText, out := Memory.writeUnits [] 0 hello } }

/-- DEC in ERROR, DIGIT (after S12). -/
def decFailed : State := { State.reset with dec := { State.reset.dec with st := .error, err := .malformed .digit } }

/-! ### Well-formedness: an ill-formed term for each check, at `LENW = 4` (`MAX_IN = 15`, capacities 24 and 5) -/

theorem test_wf_reservedCommand : HostAct.wf 4 (.writeCmd 0b11) = false := by decide
theorem test_wf_readCmd : HostAct.wf 4 .readCmd = false := by decide
theorem test_wf_writeLen : HostAct.wf 4 (.writeLen .enc 16) = false ∧ HostAct.wf 4 (.writeLen .enc 15) = true := by decide
theorem test_wf_writeIn : HostAct.wf 4 (.writeIn .dec 15 0x79) = false ∧ HostAct.wf 4 (.writeIn .dec 14 0x79) = true := by decide
theorem test_wf_readIn : HostAct.wf 4 (.readIn .enc 15) = false ∧ HostAct.wf 4 (.readIn .enc 14) = true := by decide
theorem test_wf_readOut_enc : HostAct.wf 4 (.readOut .enc 24) = false ∧ HostAct.wf 4 (.readOut .enc 23) = true := by decide
theorem test_wf_readOut_dec : HostAct.wf 4 (.readOut .dec 5) = false ∧ HostAct.wf 4 (.readOut .dec 4) = true := by decide
theorem test_wf_submit : HostAct.wf 4 (.submit (.bytes (List.replicate 16 0x79))) = false ∧
    HostAct.wf 4 (.submit (.bytes (List.replicate 15 0x79))) = true := by decide

/-! ### Decoding: every word written out from the `encoding` column of spec/opcode_table.json -/

theorem test_decode_nop : decodeCmd 0b00 = .ok .nop ∧ decodeTableWord 2 0b00 = some .nop := by decide
theorem test_decode_enc : decodeCmd 0b01 = .ok .enc ∧ decodeTableWord 2 0b01 = some .enc := by decide
theorem test_decode_dec : decodeCmd 0b10 = .ok .dec ∧ decodeTableWord 2 0b10 = some .dec := by decide
theorem test_decode_symY : decodeUnit 0b01111001 = .ok .symY ∧ decodeTableWord 8 0b01111001 = some .symY := by decide
theorem test_decode_symB : decodeUnit 0b01100010 = .ok .symB ∧ decodeTableWord 8 0b01100010 = some .symB := by decide
theorem test_decode_symN : decodeUnit 0b01101110 = .ok .symN ∧ decodeTableWord 8 0b01101110 = some .symN := by decide
theorem test_decode_symD : decodeUnit 0b01100100 = .ok .symD ∧ decodeTableWord 8 0b01100100 = some .symD := by decide
theorem test_decode_symR : decodeUnit 0b01110010 = .ok .symR ∧ decodeTableWord 8 0b01110010 = some .symR := by decide
theorem test_decode_symF : decodeUnit 0b01100110 = .ok .symF ∧ decodeTableWord 8 0b01100110 = some .symF := by decide
theorem test_decode_symG : decodeUnit 0b01100111 = .ok .symG ∧ decodeTableWord 8 0b01100111 = some .symG := by decide
theorem test_decode_sym8 : decodeUnit 0b00111000 = .ok .sym8 ∧ decodeTableWord 8 0b00111000 = some .sym8 := by decide
theorem test_decode_symE : decodeUnit 0b01100101 = .ok .symE ∧ decodeTableWord 8 0b01100101 = some .symE := by decide
theorem test_decode_symJ : decodeUnit 0b01101010 = .ok .symJ ∧ decodeTableWord 8 0b01101010 = some .symJ := by decide
theorem test_decode_symK : decodeUnit 0b01101011 = .ok .symK ∧ decodeTableWord 8 0b01101011 = some .symK := by decide
theorem test_decode_symM : decodeUnit 0b01101101 = .ok .symM ∧ decodeTableWord 8 0b01101101 = some .symM := by decide
theorem test_decode_symC : decodeUnit 0b01100011 = .ok .symC ∧ decodeTableWord 8 0b01100011 = some .symC := by decide
theorem test_decode_symP : decodeUnit 0b01110000 = .ok .symP ∧ decodeTableWord 8 0b01110000 = some .symP := by decide
theorem test_decode_symQ : decodeUnit 0b01110001 = .ok .symQ ∧ decodeTableWord 8 0b01110001 = some .symQ := by decide
theorem test_decode_symX : decodeUnit 0b01111000 = .ok .symX ∧ decodeTableWord 8 0b01111000 = some .symX := by decide
theorem test_decode_symO : decodeUnit 0b01101111 = .ok .symO ∧ decodeTableWord 8 0b01101111 = some .symO := by decide
theorem test_decode_symT : decodeUnit 0b01110100 = .ok .symT ∧ decodeTableWord 8 0b01110100 = some .symT := by decide
theorem test_decode_sym1 : decodeUnit 0b00110001 = .ok .sym1 ∧ decodeTableWord 8 0b00110001 = some .sym1 := by decide
theorem test_decode_symU : decodeUnit 0b01110101 = .ok .symU ∧ decodeTableWord 8 0b01110101 = some .symU := by decide
theorem test_decode_symW : decodeUnit 0b01110111 = .ok .symW ∧ decodeTableWord 8 0b01110111 = some .symW := by decide
theorem test_decode_symI : decodeUnit 0b01101001 = .ok .symI ∧ decodeTableWord 8 0b01101001 = some .symI := by decide
theorem test_decode_symS : decodeUnit 0b01110011 = .ok .symS ∧ decodeTableWord 8 0b01110011 = some .symS := by decide
theorem test_decode_symZ : decodeUnit 0b01111010 = .ok .symZ ∧ decodeTableWord 8 0b01111010 = some .symZ := by decide
theorem test_decode_symA : decodeUnit 0b01100001 = .ok .symA ∧ decodeTableWord 8 0b01100001 = some .symA := by decide
theorem test_decode_sym3 : decodeUnit 0b00110011 = .ok .sym3 ∧ decodeTableWord 8 0b00110011 = some .sym3 := by decide
theorem test_decode_sym4 : decodeUnit 0b00110100 = .ok .sym4 ∧ decodeTableWord 8 0b00110100 = some .sym4 := by decide
theorem test_decode_sym5 : decodeUnit 0b00110101 = .ok .sym5 ∧ decodeTableWord 8 0b00110101 = some .sym5 := by decide
theorem test_decode_symH : decodeUnit 0b01101000 = .ok .symH ∧ decodeTableWord 8 0b01101000 = some .symH := by decide
theorem test_decode_sym7 : decodeUnit 0b00110111 = .ok .sym7 ∧ decodeTableWord 8 0b00110111 = some .sym7 := by decide
theorem test_decode_sym6 : decodeUnit 0b00110110 = .ok .sym6 ∧ decodeTableWord 8 0b00110110 = some .sym6 := by decide
theorem test_decode_sym9 : decodeUnit 0b00111001 = .ok .sym9 ∧ decodeTableWord 8 0b00111001 = some .sym9 := by decide

/-- K4, V1, V3, V7: words that are no instruction. -/
theorem test_decode_refuses : decodeCmd 0b11 = .error .reservedCommand ∧ decodeTableWord 2 3 = none ∧
    decodeUnit 0x21 = .error .foreignUnit ∧ decodeUnit 0x59 = .error .foreignUnit ∧ decodeUnit 0xFF = .error .foreignUnit ∧
    decodeTableWord 8 0x30 = none := by decide

/-- V2, V4, V5, V6: foreign units of the Reverse table. -/
theorem test_rev_foreign : [0x30, 0x32, 0x6C, 0x76, 0x3D, 0x20, 0x09, 0x0A, 0x0D, 0x00, 0x7F, 0x80, 0xE9, 0xFF].map rev =
    List.replicate 14 none := by decide

/-! ### Commands (K1 to K3, S1, S6, S7, S10, S11, H4, H5) -/

theorem test_nop : exec .nop bothDone = .next bothDone := rfl

theorem test_enc_start : isNext (exec .enc (loaded .enc hello)) (fun t =>
    t.enc.st == .busy && t.enc.grp == 0 && t.enc.olen == 0 && t.enc.len == 5 && t.dec == State.reset.dec) = true := by decide

theorem test_enc_while_busy : isRefused (exec .enc (encBusy hello)) .startWhileBusy = true := by decide

theorem test_dec_start : isNext (exec .dec (loaded .dec helloText)) (fun t =>
    t.dec.st == .busy && t.dec.err == .none && t.dec.grp == 0 && t.dec.olen == 0 && t.dec.len == 8) = true := by decide

theorem test_dec_bad_length : isNext (exec .dec (bothDone.setLen .dec 7)) (fun t =>
    t.dec.st == .error && t.dec.err.code == 1 && t.dec.grp == 0 && t.dec.olen == 0) = true := by decide

/-! ### Symbols: one fold from the accumulator 1, by hand: `1 * 32 + value` (R155) -/

theorem test_symY : isNext (exec .symY (decBusy [])) (fun t => t.dec.acc == 0) = true ∧
    isNext (exec .symY { State.reset with dec := { State.reset.dec with acc := 1 } }) (fun t => t.dec.acc == 32) = true := by decide
theorem test_symB : isNext (exec .symB (decBusy [])) (fun t => t.dec.acc == 1) = true ∧
    isNext (exec .symB { State.reset with dec := { State.reset.dec with acc := 1 } }) (fun t => t.dec.acc == 33) = true := by decide
theorem test_symN : isNext (exec .symN (decBusy [])) (fun t => t.dec.acc == 2) = true ∧
    isNext (exec .symN { State.reset with dec := { State.reset.dec with acc := 1 } }) (fun t => t.dec.acc == 34) = true := by decide
theorem test_symD : isNext (exec .symD (decBusy [])) (fun t => t.dec.acc == 3) = true ∧
    isNext (exec .symD { State.reset with dec := { State.reset.dec with acc := 1 } }) (fun t => t.dec.acc == 35) = true := by decide
theorem test_symR : isNext (exec .symR (decBusy [])) (fun t => t.dec.acc == 4) = true ∧
    isNext (exec .symR { State.reset with dec := { State.reset.dec with acc := 1 } }) (fun t => t.dec.acc == 36) = true := by decide
theorem test_symF : isNext (exec .symF (decBusy [])) (fun t => t.dec.acc == 5) = true ∧
    isNext (exec .symF { State.reset with dec := { State.reset.dec with acc := 1 } }) (fun t => t.dec.acc == 37) = true := by decide
theorem test_symG : isNext (exec .symG (decBusy [])) (fun t => t.dec.acc == 6) = true ∧
    isNext (exec .symG { State.reset with dec := { State.reset.dec with acc := 1 } }) (fun t => t.dec.acc == 38) = true := by decide
theorem test_sym8 : isNext (exec .sym8 (decBusy [])) (fun t => t.dec.acc == 7) = true ∧
    isNext (exec .sym8 { State.reset with dec := { State.reset.dec with acc := 1 } }) (fun t => t.dec.acc == 39) = true := by decide
theorem test_symE : isNext (exec .symE (decBusy [])) (fun t => t.dec.acc == 8) = true ∧
    isNext (exec .symE { State.reset with dec := { State.reset.dec with acc := 1 } }) (fun t => t.dec.acc == 40) = true := by decide
theorem test_symJ : isNext (exec .symJ (decBusy [])) (fun t => t.dec.acc == 9) = true ∧
    isNext (exec .symJ { State.reset with dec := { State.reset.dec with acc := 1 } }) (fun t => t.dec.acc == 41) = true := by decide
theorem test_symK : isNext (exec .symK (decBusy [])) (fun t => t.dec.acc == 10) = true ∧
    isNext (exec .symK { State.reset with dec := { State.reset.dec with acc := 1 } }) (fun t => t.dec.acc == 42) = true := by decide
theorem test_symM : isNext (exec .symM (decBusy [])) (fun t => t.dec.acc == 11) = true ∧
    isNext (exec .symM { State.reset with dec := { State.reset.dec with acc := 1 } }) (fun t => t.dec.acc == 43) = true := by decide
theorem test_symC : isNext (exec .symC (decBusy [])) (fun t => t.dec.acc == 12) = true ∧
    isNext (exec .symC { State.reset with dec := { State.reset.dec with acc := 1 } }) (fun t => t.dec.acc == 44) = true := by decide
theorem test_symP : isNext (exec .symP (decBusy [])) (fun t => t.dec.acc == 13) = true ∧
    isNext (exec .symP { State.reset with dec := { State.reset.dec with acc := 1 } }) (fun t => t.dec.acc == 45) = true := by decide
theorem test_symQ : isNext (exec .symQ (decBusy [])) (fun t => t.dec.acc == 14) = true ∧
    isNext (exec .symQ { State.reset with dec := { State.reset.dec with acc := 1 } }) (fun t => t.dec.acc == 46) = true := by decide
theorem test_symX : isNext (exec .symX (decBusy [])) (fun t => t.dec.acc == 15) = true ∧
    isNext (exec .symX { State.reset with dec := { State.reset.dec with acc := 1 } }) (fun t => t.dec.acc == 47) = true := by decide
theorem test_symO : isNext (exec .symO (decBusy [])) (fun t => t.dec.acc == 16) = true ∧
    isNext (exec .symO { State.reset with dec := { State.reset.dec with acc := 1 } }) (fun t => t.dec.acc == 48) = true := by decide
theorem test_symT : isNext (exec .symT (decBusy [])) (fun t => t.dec.acc == 17) = true ∧
    isNext (exec .symT { State.reset with dec := { State.reset.dec with acc := 1 } }) (fun t => t.dec.acc == 49) = true := by decide
theorem test_sym1 : isNext (exec .sym1 (decBusy [])) (fun t => t.dec.acc == 18) = true ∧
    isNext (exec .sym1 { State.reset with dec := { State.reset.dec with acc := 1 } }) (fun t => t.dec.acc == 50) = true := by decide
theorem test_symU : isNext (exec .symU (decBusy [])) (fun t => t.dec.acc == 19) = true ∧
    isNext (exec .symU { State.reset with dec := { State.reset.dec with acc := 1 } }) (fun t => t.dec.acc == 51) = true := by decide
theorem test_symW : isNext (exec .symW (decBusy [])) (fun t => t.dec.acc == 20) = true ∧
    isNext (exec .symW { State.reset with dec := { State.reset.dec with acc := 1 } }) (fun t => t.dec.acc == 52) = true := by decide
theorem test_symI : isNext (exec .symI (decBusy [])) (fun t => t.dec.acc == 21) = true ∧
    isNext (exec .symI { State.reset with dec := { State.reset.dec with acc := 1 } }) (fun t => t.dec.acc == 53) = true := by decide
theorem test_symS : isNext (exec .symS (decBusy [])) (fun t => t.dec.acc == 22) = true ∧
    isNext (exec .symS { State.reset with dec := { State.reset.dec with acc := 1 } }) (fun t => t.dec.acc == 54) = true := by decide
theorem test_symZ : isNext (exec .symZ (decBusy [])) (fun t => t.dec.acc == 23) = true ∧
    isNext (exec .symZ { State.reset with dec := { State.reset.dec with acc := 1 } }) (fun t => t.dec.acc == 55) = true := by decide
theorem test_symA : isNext (exec .symA (decBusy [])) (fun t => t.dec.acc == 24) = true ∧
    isNext (exec .symA { State.reset with dec := { State.reset.dec with acc := 1 } }) (fun t => t.dec.acc == 56) = true := by decide
theorem test_sym3 : isNext (exec .sym3 (decBusy [])) (fun t => t.dec.acc == 25) = true ∧
    isNext (exec .sym3 { State.reset with dec := { State.reset.dec with acc := 1 } }) (fun t => t.dec.acc == 57) = true := by decide
theorem test_sym4 : isNext (exec .sym4 (decBusy [])) (fun t => t.dec.acc == 26) = true ∧
    isNext (exec .sym4 { State.reset with dec := { State.reset.dec with acc := 1 } }) (fun t => t.dec.acc == 58) = true := by decide
theorem test_sym5 : isNext (exec .sym5 (decBusy [])) (fun t => t.dec.acc == 27) = true ∧
    isNext (exec .sym5 { State.reset with dec := { State.reset.dec with acc := 1 } }) (fun t => t.dec.acc == 59) = true := by decide
theorem test_symH : isNext (exec .symH (decBusy [])) (fun t => t.dec.acc == 28) = true ∧
    isNext (exec .symH { State.reset with dec := { State.reset.dec with acc := 1 } }) (fun t => t.dec.acc == 60) = true := by decide
theorem test_sym7 : isNext (exec .sym7 (decBusy [])) (fun t => t.dec.acc == 29) = true ∧
    isNext (exec .sym7 { State.reset with dec := { State.reset.dec with acc := 1 } }) (fun t => t.dec.acc == 61) = true := by decide
theorem test_sym6 : isNext (exec .sym6 (decBusy [])) (fun t => t.dec.acc == 30) = true ∧
    isNext (exec .sym6 { State.reset with dec := { State.reset.dec with acc := 1 } }) (fun t => t.dec.acc == 62) = true := by decide
theorem test_sym9 : isNext (exec .sym9 (decBusy [])) (fun t => t.dec.acc == 31) = true ∧
    isNext (exec .sym9 { State.reset with dec := { State.reset.dec with acc := 1 } }) (fun t => t.dec.acc == 63) = true := by decide

/-! ### Engine steps (S2, S3, S5, S6, S8, S9, S12, H3) -/

theorem test_enc_group : isNext (encTurn (encBusy hello)) (fun t => t.enc.acc == 0x68656C6C6F && t.enc.grp == 1 &&
    cells .encOut 9 t == helloText.map some ++ [none] && t.enc.st == .busy && t.enc.olen == 0) = true := by decide

theorem test_enc_group_padding : isNext (encTurn ((encBusy [0x61, 0x65, 0x6C, 0x6C, 0x6F]).setLen .enc 1)) (fun t =>
    t.enc.acc == 0x6100000000 && cells .encOut 8 t == ([0x63, 0x72, 0x79, 0x79, 0x79, 0x79, 0x79, 0x79].map some)) = true := by decide

theorem test_enc_finish_empty : isNext (encTurn (encBusy [])) (fun t => t.enc.st == .done && t.enc.olen == 0) = true := by decide

theorem test_enc_unwritten : isRefused (encTurn ((encBusy []).setLen .enc 3)) .noValue = true := by decide

theorem test_dec_group : isNext (decTurn (decBusy helloText)) (fun t => t.dec.acc == 0x68656C6C6F && t.dec.grp == 1 &&
    cells .decOut 6 t == hello.map some ++ [none] && t.dec.st == .busy) = true := by decide

theorem test_dec_group_digit : isNext (decTurn (decBusy [0x79, 0x79, 0x79, 0x79, 0x79, 0x79, 0x79, 0x21])) (fun t =>
    t.dec.st == .error && t.dec.err.code == 2 && t.dec.olen == 0 && t.dec.grp == 0 && t.dec.acc == 0 && t.dec.out == []) = true := by
  decide

/-- R58, R233: a foreign unit before a cell that holds no value, and after one: the same refusal. -/
theorem test_dec_unwritten : isRefused (decTurn ((decBusy [0x21]).setLen .dec 8)) .noValue = true ∧
    isRefused (decTurn (memWrite .decIn 7 0x21 ((decBusy []).setLen .dec 8))) .noValue = true := by decide

theorem test_dec_finish : isNext (decTurn { bothDone with dec := { bothDone.dec with st := .busy, olen := 0 } }) (fun t =>
    t.dec.st == .done && t.dec.olen == 5) = true := by decide

/-! ### The host (H6 to H11) -/

theorem test_rst : isNext (hostAct .rst (encBusy hello)) (fun t => t.enc == State.reset.enc && t.dec == State.reset.dec) = true := by
  decide
theorem test_write_while_busy : isRefused (hostAct (.writeIn .dec 0 0x79) (decBusy helloText)) .writeWhileBusy = true := by decide
theorem test_read_out_in_error : isRefused (hostAct (.readOut .dec 0) decFailed) .resultNotThere = true := by decide
theorem test_read_out_beyond : isRefused (hostAct (.readOut .enc 8) bothDone) .resultNotThere = true ∧
    isNext (hostAct (.readOut .enc 7) bothDone) (fun t => t.replies == [.out .enc 7 0x78]) = true := by decide

/-! ### Where a word is fetched -/

theorem test_fetch_dec : isNext (step (State.reset.withFetchWord 2 0b10)) (fun t => t.dec.st == .busy) = true := by decide
theorem test_fetch_symbol : isNext (step (State.reset.withFetchWord 8 0x62)) (fun t => t.dec.acc == 0x0842108421 &&
    cells .decOut 5 t == [some 0x08, some 0x42, some 0x10, some 0x84, some 0x21] && t.dec.grp == 1) = true := by decide

/-! ### Tables and the function view (F4, F9, B2, E1, E6, E12, E16, D1, D6, X4, X12, M5, M6, M7, M9) -/

theorem test_forward : fwdLookup 32 = (0x62, 0x79) ∧ fwdLookup 417 = (0x70, 0x62) ∧ fwdLookup 1000 = (0x39, 0x65) := by decide
theorem test_layout : pack40 0x01 0x23 0x45 0x67 0x89 = 0x0123456789 ∧ field 0x0123456789 1 = 564 ∧
    (List.range 8).map (valueAt 0x0123456789) = [0, 4, 17, 20, 10, 25, 28, 9] := by decide
theorem test_encode : encodeBytes [] = [] ∧ encodeBytes [0x61, 0x62, 0x63] = [0x63, 0x66, 0x74, 0x67, 0x67, 0x79, 0x79, 0x79] ∧
    encodeBytes [0x00] = List.replicate 8 0x79 := by decide
theorem test_decode_text : decodeText [] = .ok [] ∧
    decodeText [0x62, 0x79, 0x79, 0x79, 0x79, 0x79, 0x79, 0x79] = .ok [0x08, 0, 0, 0, 0] ∧
    decodeText [0x79, 0x79, 0x79, 0x79, 0x79, 0x79, 0x21] = .error .length ∧
    decodeText (List.replicate 8 0x79 ++ 0x21 :: List.replicate 7 0x79) = .error .digit := by decide
theorem test_adapter : decodeValue (.text [0x79, 0x79, 0x79, 0x79, 0x79, 0x79, 0xE9]) = .error (.adapter .invalidCharacterSet) ∧
    decodeValue (.bytes [0x79, 0x79, 0x79, 0x79, 0x79, 0x79, 0x79, 0xE9]) = .error (.malformedInput .digit) ∧
    decodeValue (.text [0x79, 0x79, 0x79, 0x79, 0x79, 0x79, 0x79, 0x7F]) = .error (.malformedInput .digit) ∧
    decodeValue (.text [0x0179]) = .error (.adapter .invalidCharacterSet) := by decide

/-! ### Witnesses: concrete states and operands that meet the hypotheses of each statement, clause by clause -/

theorem bothDone_good : GoodState bothDone where
  enc :=
    { inpWf := by decide, outWf := by decide, notError := by decide, idleGrp := by decide, olenZero := by decide,
      olenDone := by decide, busyGrp := by decide
      outSymbol := fun _ i (hi : i < 8) => by
        interval_cases i
        exacts [⟨13, rfl⟩, ⟨1, rfl⟩, ⟨18, rfl⟩, ⟨22, rfl⟩, ⟨24, rfl⟩, ⟨27, rfl⟩, ⟨3, rfl⟩, ⟨15, rfl⟩] }
  dec :=
    { inpWf := by decide, outWf := by decide, errIff := by decide, idleGrp := by decide, olenZero := by decide,
      olenDone := by decide, busyLen := by decide
      outSome := fun _ i (hi : i < 5) => by interval_cases i <;> rfl }

/-- Both engines about to FINISH, in a good state. -/
def bothFinishing : State := { bothDone with
  enc := { bothDone.enc with st := .busy, olen := 0 }, dec := { bothDone.dec with st := .busy, olen := 0 } }

theorem bothFinishing_good : GoodState bothFinishing where
  enc := { bothDone_good.enc with
    notError := by decide, idleGrp := by decide, olenZero := by decide, olenDone := by decide, busyGrp := by decide
    outSymbol := fun _ => bothDone_good.enc.outSymbol (.inr rfl) }
  dec := { bothDone_good.dec with
    errIff := by decide, idleGrp := by decide, olenZero := by decide, olenDone := by decide, busyLen := by decide
    outSome := fun _ => bothDone_good.dec.outSome (.inr rfl) }

theorem witness_RstAbandonsEveryOperation :
    takeTurn { encBusy hello with script := [.rst], turns := [.host] } = (.host, { encBusy hello with script := [.rst] }) ∧
    ({ encBusy hello with script := [.rst], turns := [.host] } : State).script = .rst :: [] := ⟨rfl, rfl⟩

theorem witness_StepRunsTheCommandWritten :
    takeTurn (hostNext [.writeCmd 0b01]) = (.host, { State.reset with script := [.writeCmd 0b01] }) ∧
    (hostNext [.writeCmd 0b01]).script = .writeCmd 0b01 :: [] ∧ decodeCmd 0b01 = .ok .enc := ⟨rfl, rfl, by decide⟩

theorem witness_StepRunsTheSymbolsOfAQuantum :
    let s : State := { decBusy helloText with turns := [.dec] }
    let is : List Instr := [.symP, .symB, .sym1, .symS, .symA, .sym5, .symD, .symX]
    takeTurn s = (.dec, decBusy helloText) ∧ s.dec.st = .busy ∧ 8 * s.dec.grp < s.dec.len ∧ is.length = 8 ∧
    ∀ k, k < 8 → ∃ c i, memRead .decIn (8 * s.dec.grp + k) s = some c ∧ is[k]? = some i ∧ decodeUnit c = .ok i := by
  refine ⟨rfl, rfl, by decide, rfl, fun k hk => ?_⟩
  interval_cases k
  exacts [⟨0x70, .symP, rfl, rfl, rfl⟩, ⟨0x62, .symB, rfl, rfl, rfl⟩, ⟨0x31, .sym1, rfl, rfl, rfl⟩, ⟨0x73, .symS, rfl, rfl, rfl⟩,
    ⟨0x61, .symA, rfl, rfl, rfl⟩, ⟨0x35, .sym5, rfl, rfl, rfl⟩, ⟨0x64, .symD, rfl, rfl, rfl⟩, ⟨0x78, .symX, rfl, rfl, rfl⟩]

theorem witness_FetchWordRunsNext :
    (decodeTableWord 2 0b01 = some .enc ∧ Instr.enc.symValue = none) ∧
    (decodeTableWord 8 0x79 = some .symY ∧ Instr.symY.symValue ≠ none) ∧
    (decodeTableWord 8 0x39 = some .sym9 ∧ Instr.sym9.symValue ≠ none) := by decide

theorem witness_ReservedCommandAndReadOfCmdAreRefused :
    takeTurn (hostNext [.writeCmd 0b11]) = (.host, { State.reset with script := [.writeCmd 0b11] }) ∧
    (hostNext [.writeCmd 0b11]).script = .writeCmd 0b11 :: [] ∧
    takeTurn (hostNext [.readCmd]) = (.host, { State.reset with script := [.readCmd] }) ∧
    (hostNext [.readCmd]).script = .readCmd :: [] := ⟨rfl, rfl, rfl, rfl⟩

theorem witness_DecodeAndEncodeAgree : decodeAll [0x01, 0x79, 0x39] = .ok [.enc, .symY, .sym9] := by decide

theorem witness_EncStartsTheEncoder :
    State.reset.enc.st ≠ .busy ∧ State.reset.enc.len = 0 ∧ (loaded .enc hello).enc.st ≠ .busy ∧ (encBusy hello).enc.st = .busy := by
  decide

theorem witness_DecStartsTheDecoder :
    (State.reset.dec.st ≠ .busy ∧ State.reset.dec.len % 8 = 0 ∧ State.reset.dec.len = 0) ∧
    ((loaded .dec helloText).dec.st ≠ .busy ∧ (loaded .dec helloText).dec.len % 8 = 0) ∧
    ((State.reset.setLen .dec 7).dec.st ≠ .busy ∧ (State.reset.setLen .dec 7).dec.len % 8 ≠ 0) ∧
    ((State.reset.setLen .dec 9).dec.st ≠ .busy ∧ (State.reset.setLen .dec 9).dec.len % 8 ≠ 0) ∧
    (decBusy helloText).dec.st = .busy := by decide

theorem witness_OneOperationPerEngine :
    (encBusy hello).enc.st = .busy ∧ (encBusy hello).dec.st ≠ .busy ∧ (decBusy helloText).dec.st = .busy ∧
    (decBusy helloText).enc.st ≠ .busy := by decide

theorem witness_SymbolsFoldTheirValue :
    (Instr.symY ≠ .nop ∧ Instr.symY ≠ .enc ∧ Instr.symY ≠ .dec) ∧ (Instr.sym9 ≠ .nop ∧ Instr.sym9 ≠ .enc ∧ Instr.sym9 ≠ .dec) := by
  decide

/-- A full group, and a group of one byte whose other four cells hold no value. -/
theorem witness_EncGroupEncodesOneGroup : ∀ s ∈ [encBusy hello, encBusy [0x61]],
    s.enc.st = .busy ∧ 5 * s.enc.grp < s.enc.len ∧
    ∀ i, 5 * s.enc.grp ≤ i → i < 5 * s.enc.grp + 5 → i < s.enc.len → (memRead .encIn i s).isSome = true := by
  intro s hs
  simp only [List.mem_cons, List.not_mem_nil, or_false] at hs
  rcases hs with rfl | rfl
  · refine ⟨rfl, by decide, fun i _ (h : i < 5) _ => ?_⟩
    interval_cases i <;> rfl
  · refine ⟨rfl, by decide, fun i _ _ (h : i < 1) => ?_⟩
    interval_cases i
    rfl

theorem witness_EncFinishPublishesTheLength :
    ((encBusy []).enc.st = .busy ∧ (encBusy []).enc.len ≤ 5 * (encBusy []).enc.grp) ∧
    (bothFinishing.enc.st = .busy ∧ bothFinishing.enc.len ≤ 5 * bothFinishing.enc.grp ∧ GoodState bothFinishing) :=
  ⟨by decide, rfl, by decide, bothFinishing_good⟩

theorem witness_DecGroupDecodesOneQuantum_symbols : GoodState { bothFinishing with dec := { bothFinishing.dec with grp := 0 } } ∧
    8 * 0 < bothFinishing.dec.len ∧
    let s := decBusy helloText
    s.dec.st = .busy ∧ 8 * s.dec.grp < s.dec.len ∧
    ∀ k, k < 8 → ∃ c, memRead .decIn (8 * s.dec.grp + k) s = some c ∧
      rev c = ([13, 1, 18, 22, 24, 27, 3, 15] : List Val5)[k]? := by
  refine ⟨⟨bothFinishing_good.enc, ?_⟩, by decide, rfl, by decide, fun k hk => ?_⟩
  · exact { bothFinishing_good.dec with busyLen := by decide, outSome := fun _ i hi => absurd hi (Nat.not_lt_zero i), idleGrp := by decide,
                                        olenDone := by decide }
  interval_cases k
  exacts [⟨0x70, rfl, rfl⟩, ⟨0x62, rfl, rfl⟩, ⟨0x31, rfl, rfl⟩, ⟨0x73, rfl, rfl⟩, ⟨0x61, rfl, rfl⟩, ⟨0x35, rfl, rfl⟩, ⟨0x64, rfl, rfl⟩,
    ⟨0x78, rfl, rfl⟩]

/-- DEC BUSY over `yyyyyyy!`, and over `!yyyyyyy`. -/
def foreignLast : State := decBusy [0x79, 0x79, 0x79, 0x79, 0x79, 0x79, 0x79, 0x21]
def foreignFirst : State := decBusy [0x21, 0x79, 0x79, 0x79, 0x79, 0x79, 0x79, 0x79]

theorem witness_DecGroupDecodesOneQuantum_foreign :
    (foreignLast.dec.st = .busy ∧ 8 * foreignLast.dec.grp < foreignLast.dec.len ∧
      memRead .decIn (8 * foreignLast.dec.grp + 7) foreignLast = some 0x21 ∧ rev 0x21 = none ∧
      ∀ j, j < 8 → (memRead .decIn (8 * foreignLast.dec.grp + j) foreignLast).isSome = true) ∧
    (foreignFirst.dec.st = .busy ∧ 8 * foreignFirst.dec.grp < foreignFirst.dec.len ∧
      memRead .decIn (8 * foreignFirst.dec.grp + 0) foreignFirst = some 0x21 ∧
      ∀ j, j < 8 → (memRead .decIn (8 * foreignFirst.dec.grp + j) foreignFirst).isSome = true) := by
  refine ⟨⟨rfl, by decide, rfl, rfl, fun j hj => ?_⟩, rfl, by decide, rfl, fun j hj => ?_⟩ <;> interval_cases j <;> rfl

theorem witness_FailedDecodeLeavesNoResult :
    foreignLast.dec.st = .busy ∧ decTurn foreignLast = .next (raiseMalformed .digit foreignLast) ∧
    (raiseMalformed .digit foreignLast).dec.st = .error := ⟨rfl, rfl, rfl⟩

theorem witness_DecFinishPublishesTheLength :
    ((decBusy []).dec.st = .busy ∧ (decBusy []).dec.len ≤ 8 * (decBusy []).dec.grp) ∧
    (bothFinishing.dec.st = .busy ∧ bothFinishing.dec.len ≤ 8 * bothFinishing.dec.grp ∧ GoodState bothFinishing) :=
  ⟨by decide, rfl, by decide, bothFinishing_good⟩

theorem witness_BusyEnginesMakeProgress :
    State.reset.enc.st ≠ .busy ∧ State.reset.dec.st ≠ .busy ∧
    GoodState bothFinishing ∧ bothFinishing.enc.st = .busy ∧ bothFinishing.dec.st = .busy ∧
    (∀ i, i < bothFinishing.enc.len → (memRead .encIn i bothFinishing).isSome = true) ∧
    (∀ i, i < bothFinishing.dec.len → (memRead .decIn i bothFinishing).isSome = true) := by
  refine ⟨by decide, by decide, bothFinishing_good, rfl, rfl, fun i (hi : i < 5) => ?_, fun i (hi : i < 8) => ?_⟩ <;>
    interval_cases i <;> rfl

/-- The last real cell of a group holds no value; the first and the last cell of a quantum hold none, the latter after a foreign
unit. -/
theorem witness_UnwrittenInputIsRefused :
    (let s := (encBusy [0x68, 0x65, 0x6C, 0x6C]).setLen .enc 5;
      s.enc.st = .busy ∧ 5 * s.enc.grp < s.enc.len ∧ 5 * s.enc.grp + 4 < s.enc.len ∧ memRead .encIn (5 * s.enc.grp + 4) s = none) ∧
    (let s := (decBusy []).setLen .dec 8;
      s.dec.st = .busy ∧ 8 * s.dec.grp < s.dec.len ∧ memRead .decIn (8 * s.dec.grp + 0) s = none) ∧
    (let s := (decBusy [0x21]).setLen .dec 8;
      s.dec.st = .busy ∧ 8 * s.dec.grp < s.dec.len ∧ memRead .decIn (8 * s.dec.grp + 7) s = none) :=
  ⟨⟨rfl, by decide, by decide, rfl⟩, ⟨rfl, by decide, rfl⟩, rfl, by decide, rfl⟩

/-- Both engines BUSY, both turns answer and change the state. -/
theorem witness_EngineStepsCommute :
    encTurn bothFinishing = .next (encFinish bothFinishing) ∧ decTurn bothFinishing = .next (decFinish bothFinishing) ∧
    encFinish bothFinishing ≠ bothFinishing ∧ decFinish bothFinishing ≠ bothFinishing := ⟨rfl, rfl, by decide, by decide⟩

theorem witness_WritersOfEachRegister :
    encTurn bothFinishing = .next (encFinish bothFinishing) ∧ decTurn bothFinishing = .next (decFinish bothFinishing) ∧
    HostAct.writeIn .enc 0 0x61 ≠ .rst ∧ hostAct (.writeIn .enc 0 0x61) bothDone = .next (memWrite .encIn 0 0x61 bothDone) :=
  ⟨rfl, rfl, by decide, rfl⟩

/-- A step of each writer of each register answers, and is the event the statement names. -/
theorem witness_WritersOfEachRegister_steps :
    (EncStarts (hostNext [.writeCmd 0b01]) ∧ isNext (step (hostNext [.writeCmd 0b01])) (fun t => t.enc.olen == 0) = true) ∧
    (EncGroups { encBusy hello with turns := [.enc] } ∧
      isNext (step { encBusy hello with turns := [.enc] }) (fun t => t.enc.acc == 0x68656C6C6F) = true) ∧
    (EncFinishes { bothFinishing with turns := [.enc] } ∧
      isNext (step { bothFinishing with turns := [.enc] }) (fun t => t.enc.olen == 8) = true) ∧
    (DecStarts ((hostNext [.writeCmd 0b10]).setLen .dec 7) ∧
      isNext (step ((hostNext [.writeCmd 0b10]).setLen .dec 7)) (fun t => t.dec.err == .malformed .length) = true) ∧
    (DecGroups { foreignLast with turns := [.dec] } ∧
      isNext (step { foreignLast with turns := [.dec] }) (fun t => t.dec.err == .malformed .digit && t.dec.olen == 0) = true) ∧
    (DecFinishes { bothFinishing with turns := [.dec] } ∧
      isNext (step { bothFinishing with turns := [.dec] }) (fun t => t.dec.olen == 5) = true) ∧
    (HostDoes (.writeLen .dec 9) (hostNext [.writeLen .dec 9]) ∧
      isNext (step (hostNext [.writeLen .dec 9])) (fun t => t.dec.len == 9) = true) ∧
    (HostDoes .rst { bothDone with turns := [.host], script := [.rst] } ∧
      isNext (step { bothDone with turns := [.host], script := [.rst] }) (fun t => t.dec.olen == 0) = true) := by decide

/-- One step for each transition of the two status registers. -/
theorem witness_StatusTransitions :
    isNext (step (hostNext [.writeCmd 0b01])) (fun t => t.enc.st == .busy) = true ∧
    isNext (step { hostNext [.rst] with enc := (encBusy hello).enc, dec := (decBusy helloText).dec }) (fun t =>
      t.enc.st == .idle && t.dec.st == .idle) = true ∧
    isNext (step { bothFinishing with turns := [.enc] }) (fun t => t.enc.st == .done) = true ∧
    isNext (step (hostNext [.writeCmd 0b10])) (fun t => t.dec.st == .busy) = true ∧
    isNext (step ((hostNext [.writeCmd 0b10]).setLen .dec 7)) (fun t => t.dec.st == .error) = true ∧
    isNext (step { bothFinishing with turns := [.dec] }) (fun t => t.dec.st == .done) = true ∧
    isNext (step { foreignLast with turns := [.dec] }) (fun t => t.dec.st == .error) = true := by decide

/-- A GROUP step of each engine, a START of each after a finished operation, and a reset. -/
theorem witness_GroupCountersAndAccumulators :
    isNext (step { encBusy hello with turns := [.enc] }) (fun t => t.enc.grp == 1) = true ∧
    isNext (step { decBusy helloText with turns := [.dec] }) (fun t => t.dec.grp == 1) = true ∧
    isNext (step { bothDone with turns := [.host], script := [.writeCmd 0b01] }) (fun t => t.enc.grp == 0 && t.enc.acc == 0x68656C6C6F) =
      true ∧
    isNext (step { bothDone with turns := [.host], script := [.writeCmd 0b10] }) (fun t => t.dec.grp == 0 && t.dec.acc == 0x68656C6C6F) =
      true ∧
    isNext (step { bothDone with turns := [.host], script := [.rst] }) (fun t => t.enc.grp == 0 && t.dec.grp == 0) = true := by decide

/-- From ERROR: an idle turn, a reset, a DEC.START. -/
theorem witness_ErrorPersistsUntilStartOrReset :
    decFailed.dec.st = .error ∧ step { decFailed with turns := [.dec] } = .next decFailed ∧
    isNext (step { hostNext [.rst] with dec := decFailed.dec }) (fun t => t.dec.st == .idle) = true ∧
    isNext (step { hostNext [.writeCmd 0b10] with dec := decFailed.dec }) (fun t => t.dec.st == .busy) = true :=
  ⟨rfl, rfl, by decide, by decide⟩

theorem witness_ProtocolHazardsAreRefused :
    (encBusy hello).st .enc = .busy ∧ (decBusy helloText).st .dec = .busy ∧
    ¬ (bothDone.st .enc = .done ∧ 8 < bothDone.olen .enc) ∧ ¬ (decFailed.st .dec = .done ∧ 0 < decFailed.olen .dec) := by decide

/-- An input cell after reset; an output cell of a DONE engine that holds no value (a state no run reaches); both engines BUSY. -/
theorem witness_InputReadsAreRefusedWhenUnwrittenOrBusy :
    (State.reset.st .enc ≠ .busy ∧ memRead (inSpace .enc) 0 State.reset = none) ∧
    (let s : State := { bothDone with enc := { bothDone.enc with out := [] } };
      s.st .enc = .done ∧ 0 < s.olen .enc ∧ memRead (outSpace .enc) 0 s = none) ∧
    ((encBusy hello).st .enc = .busy ∧ (decBusy helloText).st .dec = .busy) := by decide

theorem witness_HostPortsAnswer :
    bothDone.st .enc ≠ .busy ∧ bothDone.st .dec ≠ .busy ∧ memRead (inSpace .enc) 4 bothDone = some 0x6F := by decide

theorem witness_ResultsAreReadable :
    GoodState bothDone ∧ bothDone.st .enc = .done ∧ 7 < bothDone.olen .enc ∧ bothDone.st .dec = .done ∧ 4 < bothDone.olen .dec :=
  ⟨bothDone_good, rfl, by decide, rfl, by decide⟩

theorem witness_LoadWritesTheInput :
    State.reset.st .enc ≠ .busy ∧ (hostNext (load .enc hello ++ [.writeCmd 0b01])).script = load .enc hello ++ [.writeCmd 0b01] ∧
    (hostNext (load .dec [])).script = load .dec [] ++ [] := by decide

theorem bothDone_results : ResultIs .enc helloText bothDone ∧ ResultIs .dec hello bothDone := by
  refine ⟨⟨rfl, rfl, fun i (hi : i < 8) => ?_⟩, rfl, rfl, fun i (hi : i < 5) => ?_⟩ <;> interval_cases i <;> rfl

theorem witness_ReadReportsTheOutcome :
    (let s : State := { bothDone with script := [.read .enc] };
      ResultIs .enc helloText s ∧ s.script = .read .enc :: []) ∧
    (let s : State := { bothDone with script := [.read .dec] };
      ResultIs .dec hello s ∧ s.script = .read .dec :: []) ∧
    (let s : State := { decFailed with script := [.read .dec] };
      s.dec.st = .error ∧ s.script = .read .dec :: []) ∧
    (State.reset.st .enc = .idle ∧ State.reset.st .dec = .idle ∧ (hostNext [.read .enc]).script = .read .enc :: []) ∧
    ((encBusy hello).st .enc = .busy ∧ (decBusy helloText).st .dec = .busy ∧
      ({ encBusy hello with script := [.read .enc] } : State).script = .read .enc :: []) :=
  ⟨⟨bothDone_results.1, rfl⟩, ⟨bothDone_results.2, rfl⟩, ⟨rfl, rfl⟩, ⟨rfl, rfl, rfl⟩, rfl, rfl, rfl⟩

theorem witness_WaitPollsTheStatus :
    (let s : State := { encBusy hello with script := [.wait .enc] };
      s.script = .wait .enc :: [] ∧ s.st .enc = .busy) ∧
    (let s : State := { bothDone with script := [.wait .enc] };
      s.script = .wait .enc :: [] ∧ s.st .enc ≠ .busy) := ⟨⟨rfl, rfl⟩, rfl, by decide⟩

theorem witness_ReverseTableInvertsTheAlphabet : rev 0x79 = some 0 ∧ rev 0x39 = some 31 := by decide

theorem witness_UnitDecoderIsTheReverseTable : rev 0x39 = some 31 ∧ decodeUnit 0x39 = .ok .sym9 ∧ Instr.sym9.symValue = some 31 := by
  decide

theorem witness_GroupsAndQuantaCorrespond :
    (helloText.length = 8 ∧ ∀ c ∈ helloText, (rev c).isSome = true) ∧
    (∃ c ∈ ([0x79, 0x79, 0x79, 0x79, 0x79, 0x79, 0x79, 0x21] : List Byte), rev c = none) :=
  ⟨by decide, 0x21, by simp, by decide⟩

theorem witness_DecodeOutcomes :
    (([0x79, 0x79, 0x79, 0x79, 0x79, 0x79, 0x79] : List Byte).length % 8 ≠ 0) ∧
    (([0x79, 0x79, 0x79, 0x79, 0x79, 0x79, 0x79, 0x21] : List Byte).length % 8 = 0 ∧ rev 0x21 = none) ∧
    (helloText.length % 8 = 0 ∧ ∀ c ∈ helloText, rev c ≠ none) ∧
    (([] : List Byte).length % 8 = 0 ∧ ∀ c ∈ ([] : List Byte), rev c ≠ none) := by decide

theorem witness_RoundTripOnWholeGroups : hello.length % 5 = 0 ∧ ([] : List Byte).length % 5 = 0 := by decide

theorem witness_DecodableTextsAreCanonical : decodeText helloText = .ok hello := by decide

theorem witness_EncodingForgetsExactlyThePadding : encodeBytes [0x61] = encodeBytes [0x61, 0x00] ∧ pad5 [0x61] = pad5 [0x61, 0x00] := by
  decide

theorem witness_InputsMayBeCutAtGroups : hello.length % 5 = 0 ∧ decodeText helloText = .ok hello ∧ decodeText [] = .ok [] := by decide

/-- A host value without and one with a byte view cannot be exhibited: `Config.view` is a free value; the clauses about it hold
whichever it is, and one of the two has its hypothesis met for each tag. -/
theorem witness_AdapterComesFirst :
    (∃ cp ∈ [0x79, 0x80], 0x7F < cp) ∧ (∀ cp ∈ [0x79, 0x7F], cp ≤ 0x7F) ∧
    (Config.view 0 = none ∨ ∃ us, Config.view 0 = some us) ∧
    (normalizeValue (.bytes [0x79]) = .ok [0x79] ∧ ([0x79] : List Byte).length % 8 ≠ 0) ∧
    (normalizeValue (.bytes (List.replicate 8 0x21)) = .ok (List.replicate 8 0x21) ∧ (List.replicate 8 (0x21 : Byte)).length % 8 = 0 ∧
      (0x21 : Byte) ∈ List.replicate 8 (0x21 : Byte) ∧ rev 0x21 = none) ∧
    normalizeValue (.text [0x80]) = .error .invalidCharacterSet := by
  refine ⟨by decide, by decide, ?_, by decide, by decide, by decide⟩
  cases h : Config.view 0 with
  | none => exact .inl rfl
  | some us => exact .inr ⟨us, rfl⟩

theorem witness_EveryStepKeepsTheInvariant :
    GoodState { bothFinishing with turns := [.enc] } ∧
    step { bothFinishing with turns := [.enc] } = .next (encFinish bothFinishing) :=
  ⟨⟨bothFinishing_good.enc, bothFinishing_good.dec⟩, rfl⟩

/-- `LENW = 4`: the registers and cells of `bothFinishing` fit. -/
theorem bothFinishing_fits : Fits 4 bothFinishing := by constructor <;> decide

theorem witness_FiniteWidthsAreNeverExceeded :
    let s : State := { bothFinishing with turns := [.enc], script := [.writeLen .enc 15, .writeIn .dec 14 0x79] }
    GoodState s ∧ Fits 4 s ∧ ScriptWf 4 s ∧ step s = .next (encFinish { s with turns := [] }) :=
  ⟨⟨bothFinishing_good.enc, bothFinishing_good.dec⟩,
    ⟨bothFinishing_fits.encLen, bothFinishing_fits.decLen, bothFinishing_fits.encGrp, bothFinishing_fits.decGrp,
      bothFinishing_fits.encOlen, bothFinishing_fits.decOlen, bothFinishing_fits.encIn, bothFinishing_fits.decIn,
      bothFinishing_fits.encOut, bothFinishing_fits.decOut⟩,
    by decide, rfl⟩

/-- Over `hello` (one group): the input is loaded, ENC.START answers, the host leaves ENC alone, and three steps in which ENC has
two turns answer. -/
theorem witness_EncoderStepsComputeEncode :
    let s0 : State := { loaded .enc hello with turns := [.enc, .dec, .enc], script := [.writeCmd 0b10] }
    let s : State := { s0 with enc := { s0.enc with grp := 0, olen := 0, st := .busy } }
    InputIs .enc hello s0 ∧ exec .enc s0 = .next s ∧ LeftAlone .enc s ∧ 3 ≤ s.turns.length ∧
      (∃ t, steps 3 s = .next t) ∧ (s.turns.take 2).count .enc ≤ (hello.length + 4) / 5 ∧
      (hello.length + 4) / 5 < (s.turns.take 3).count .enc := by
  refine ⟨⟨rfl, fun i (hi : i < 5) => ?_⟩, rfl, by decide, by decide, ⟨_, rfl⟩, by decide, by decide⟩
  interval_cases i <;> rfl

/-- The empty input: no GROUP step, one FINISH. -/
theorem witness_EncoderStepsComputeEncode_empty :
    InputIs .enc [] State.reset ∧ (∃ s, exec .enc State.reset = .next s) := ⟨⟨rfl, fun i hi => absurd hi (by simp)⟩, _, rfl⟩

/-- A good text of one quantum. -/
theorem witness_DecoderStepsComputeDecode :
    let s0 : State := { loaded .dec helloText with turns := [.dec, .enc, .dec], script := [.writeCmd 0b01] }
    let s : State := { s0 with dec := { s0.dec with grp := 0, olen := 0, err := .none, st := .busy } }
    InputIs .dec helloText s0 ∧ exec .dec s0 = .next s ∧ decodeText helloText = .ok hello ∧ LeftAlone .dec s ∧
      3 ≤ s.turns.length ∧ (∃ t, steps 3 s = .next t) ∧ (s.turns.take 2).count .dec ≤ helloText.length / 8 ∧
      helloText.length / 8 < (s.turns.take 3).count .dec := by
  refine ⟨⟨rfl, fun i (hi : i < 8) => ?_⟩, rfl, by decide, by decide, by decide, ⟨_, rfl⟩, by decide, by decide⟩
  interval_cases i <;> rfl

/-- A text of seven units. -/
theorem witness_DecoderStepsComputeDecode_length :
    let b : List Byte := List.replicate 7 0x79
    let s0 : State := { loaded .dec b with turns := [.dec] }
    InputIs .dec b s0 ∧ (∃ s, exec .dec s0 = .next s ∧ LeftAlone .dec s ∧ 1 ≤ s.turns.length ∧ ∃ t, steps 1 s = .next t) ∧
      decodeText b = .error .length := by
  refine ⟨⟨rfl, fun i (hi : i < 7) => ?_⟩, ⟨_, rfl, by decide, by decide, _, rfl⟩, by decide⟩
  interval_cases i <;> rfl

/-- A text whose only foreign unit is the last of the first quantum. -/
theorem witness_DecoderStepsComputeDecode_digit :
    let b : List Byte := [0x79, 0x79, 0x79, 0x79, 0x79, 0x79, 0x79, 0x21]
    let s0 : State := { loaded .dec b with turns := [.dec] }
    InputIs .dec b s0 ∧ (∃ s, exec .dec s0 = .next s ∧ LeftAlone .dec s ∧ 1 ≤ s.turns.length ∧ ∃ t, steps 1 s = .next t) ∧
      decodeText b = .error .digit ∧ b[7]? = some 0x21 ∧ rev 0x21 = none ∧ (∀ j d, j < 7 → b[j]? = some d → rev d ≠ none) := by
  refine ⟨⟨rfl, fun i (hi : i < 8) => ?_⟩, ⟨_, rfl, by decide, by decide, _, rfl⟩, by decide, rfl, rfl, fun j d hj hd => ?_⟩
  · interval_cases i <;> rfl
  · interval_cases j <;> (cases hd; decide)

/-- The state meets the hypotheses for every value; the three outcomes each have a value. -/
theorem witness_SubmittedValueIsDecoded :
    (∀ x, ({ State.reset with script := [.submit x] } : State).dec.st ≠ .busy ∧
      ({ State.reset with script := [.submit x] } : State).script = [.submit x]) ∧
    decodeValue (.bytes helloText) = .ok hello ∧ decodeValue (.bytes [0x79]) = .error (.malformedInput .length) ∧
    decodeValue (.text [0x80]) = .error (.adapter .invalidCharacterSet) :=
  ⟨fun _ => ⟨Status.noConfusion, rfl⟩, by decide, by decide, by decide⟩

end Sys2Proof.Tests
end

section
/-! SUPPORT. The host's ports and what their writes leave unchanged: one equation per port and case (R33, R34, R234 to R239),
and one frame lemma per register for a write of a length or of a buffer cell. -/

namespace Sys2Proof.Machine

/-! ### What a port answers -/

section Ports

variable {s : State} {x : Engine} {i : Nat} {v : Byte}

theorem hostAct_readOlen (hb : s.st x ≠ .busy) : hostAct (.readOlen x) s = .next (reply (.olen x (s.olen x)) s) := by
  simp [hostAct, hb]

theorem hostAct_readLen (hb : s.st x ≠ .busy) : hostAct (.readLen x) s = .next (reply (.len x (s.len x)) s) := by
  simp [hostAct, hb]

theorem hostAct_readLen_busy (hb : s.st x = .busy) : hostAct (.readLen x) s = .refused .readWhileBusy := by
  simp [hostAct, hb]

theorem hostAct_readErr (hb : s.st .dec ≠ .busy) : hostAct .readErr s = .next (reply (.err s.dec.err.code) s) :=
  if_neg hb

theorem hostAct_writeLen (hb : s.st x ≠ .busy) (n : Nat) : hostAct (.writeLen x n) s = .next (s.setLen x n) := by
  simp [hostAct, hb]

theorem hostAct_writeIn (hb : s.st x ≠ .busy) (i : Nat) (v : Byte) :
    hostAct (.writeIn x i v) s = .next (memWrite (inSpace x) i v s) := by
  simp [hostAct, hb]

theorem hostAct_readIn_of_some (hb : s.st x ≠ .busy) (hv : memRead (inSpace x) i s = some v) :
    hostAct (.readIn x i) s = .next (reply (.inp x i v) s) := by
  simp [hostAct, hb, hv]

theorem hostAct_readIn_of_none (hb : s.st x ≠ .busy) (hv : memRead (inSpace x) i s = none) :
    hostAct (.readIn x i) s = .refused .noValue := by
  simp [hostAct, hb, hv]

theorem hostAct_readIn_busy (hb : s.st x = .busy) (i : Nat) : hostAct (.readIn x i) s = .refused .readWhileBusy := by
  simp [hostAct, hb]

theorem hostAct_readOut_of_some (hd : s.st x = .done) (hi : i < s.olen x) (hv : memRead (outSpace x) i s = some v) :
    hostAct (.readOut x i) s = .next (reply (.out x i v) s) := by
  simp [hostAct, hd, hi, hv]

theorem hostAct_readOut_of_none (hd : s.st x = .done) (hi : i < s.olen x) (hv : memRead (outSpace x) i s = none) :
    hostAct (.readOut x i) s = .refused .noValue := by
  simp [hostAct, hd, hi, hv]

end Ports

/-! ### Writing a length -/

section SetLen

variable (s : State) (x y : Engine) (n : Nat)

@[simp] theorem len_setLen_same : (s.setLen x n).len x = n := by cases x <;> rfl
@[simp] theorem st_setLen : (s.setLen x n).st y = s.st y := by cases x <;> cases y <;> rfl
@[simp] theorem grp_setLen : (s.setLen x n).grp y = s.grp y := by cases x <;> cases y <;> rfl
@[simp] theorem olen_setLen : (s.setLen x n).olen y = s.olen y := by cases x <;> cases y <;> rfl
@[simp] theorem encAcc_setLen : (s.setLen x n).enc.acc = s.enc.acc := by cases x <;> rfl
@[simp] theorem decAcc_setLen : (s.setLen x n).dec.acc = s.dec.acc := by cases x <;> rfl
@[simp] theorem err_setLen : (s.setLen x n).dec.err = s.dec.err := by cases x <;> rfl
@[simp] theorem script_setLen : (s.setLen x n).script = s.script := by cases x <;> rfl
@[simp] theorem turns_setLen : (s.setLen x n).turns = s.turns := by cases x <;> rfl
@[simp] theorem tick_setLen : (s.setLen x n).tick = s.tick := by cases x <;> rfl
@[simp] theorem replies_setLen : (s.setLen x n).replies = s.replies := by cases x <;> rfl

theorem len_setLen_other {x y : Engine} (h : y ≠ x) : (s.setLen x n).len y = s.len y := by
  cases x <;> cases y
  case enc.enc | dec.dec => exact absurd rfl h
  case enc.dec | dec.enc => rfl

@[simp] theorem memRead_setLen (sp : Space) (j : Nat) : memRead sp j (s.setLen x n) = memRead sp j s := by
  cases x <;> cases sp <;> rfl

end SetLen

/-! ### Writing a buffer cell -/

section MemWrite

variable (sp : Space) (i : Nat) (v : Byte) (s : State) (y : Engine)

@[simp] theorem st_memWrite : (memWrite sp i v s).st y = s.st y := by cases sp <;> cases y <;> rfl
@[simp] theorem len_memWrite : (memWrite sp i v s).len y = s.len y := by cases sp <;> cases y <;> rfl
@[simp] theorem grp_memWrite : (memWrite sp i v s).grp y = s.grp y := by cases sp <;> cases y <;> rfl
@[simp] theorem olen_memWrite : (memWrite sp i v s).olen y = s.olen y := by cases sp <;> cases y <;> rfl
@[simp] theorem encAcc_memWrite : (memWrite sp i v s).enc.acc = s.enc.acc := by cases sp <;> rfl
@[simp] theorem decAcc_memWrite : (memWrite sp i v s).dec.acc = s.dec.acc := by cases sp <;> rfl
@[simp] theorem err_memWrite : (memWrite sp i v s).dec.err = s.dec.err := by cases sp <;> rfl
@[simp] theorem script_memWrite : (memWrite sp i v s).script = s.script := by cases sp <;> rfl
@[simp] theorem turns_memWrite : (memWrite sp i v s).turns = s.turns := by cases sp <;> rfl
@[simp] theorem tick_memWrite : (memWrite sp i v s).tick = s.tick := by cases sp <;> rfl
@[simp] theorem replies_memWrite : (memWrite sp i v s).replies = s.replies := by cases sp <;> rfl

theorem memRead_memWrite_same : memRead sp i (memWrite sp i v s) = some v := by
  rw [memRead_memWrite, if_pos ⟨rfl, rfl⟩]

theorem memRead_memWrite_other {sp sp' : Space} {i j : Nat} (h : sp' ≠ sp ∨ j ≠ i) :
    memRead sp' j (memWrite sp i v s) = memRead sp' j s := by
  rw [memRead_memWrite, if_neg (by tauto)]

end MemWrite

end Sys2Proof.Machine
end

section
/-! SUPPORT. What one step of the machine can do to the registers and buffers of one engine, said once over all agents: the
transitions with the step that makes each (the columns 'written by' of R21, R22, R27 and R29). -/

namespace Sys2Proof.Machine

/-- The registers of ENC before and after the host action `a`. -/
inductive HostOnEnc : HostAct → EncRegs → EncRegs → Prop where
  | keep (a : HostAct) (e : EncRegs) : HostOnEnc a e e
  | reset (e : EncRegs) : HostOnEnc .rst e State.reset.enc
  | start {e : EncRegs} (free : e.st ≠ .busy) :
      HostOnEnc (.writeCmd 0b01) e { e with grp := 0, olen := 0, st := .busy }
  | writeLen {e : EncRegs} (n : Nat) (free : e.st ≠ .busy) : HostOnEnc (.writeLen .enc n) e { e with len := n }
  | writeIn {e : EncRegs} (i : Nat) (v : Byte) (free : e.st ≠ .busy) :
      HostOnEnc (.writeIn .enc i v) e { e with inp := e.inp.write i v }

/-- The registers of DEC before and after the host action `a`. -/
inductive HostOnDec : HostAct → DecRegs → DecRegs → Prop where
  | keep (a : HostAct) (d : DecRegs) : HostOnDec a d d
  | reset (d : DecRegs) : HostOnDec .rst d State.reset.dec
  | start {d : DecRegs} (free : d.st ≠ .busy) (len : d.len % 8 = 0) :
      HostOnDec (.writeCmd 0b10) d { d with grp := 0, olen := 0, err := .none, st := .busy }
  | startBadLength {d : DecRegs} (free : d.st ≠ .busy) (len : d.len % 8 ≠ 0) :
      HostOnDec (.writeCmd 0b10) d { d with grp := 0, olen := 0, err := .malformed .length, st := .error }
  | writeLen {d : DecRegs} (n : Nat) (free : d.st ≠ .busy) : HostOnDec (.writeLen .dec n) d { d with len := n }
  | writeIn {d : DecRegs} (i : Nat) (v : Byte) (free : d.st ≠ .busy) :
      HostOnDec (.writeIn .dec i v) d { d with inp := d.inp.write i v }

/-- The registers of ENC after one step of the machine from `s`. -/
inductive StepOnEnc (s : State) : EncRegs → Prop where
  | keep : StepOnEnc s s.enc
  | host {a : HostAct} {e : EncRegs} (does : HostDoes a s) (on : HostOnEnc a s.enc e) : StepOnEnc s e
  | finish (fin : EncFinishes s) : StepOnEnc s { s.enc with olen := 8 * s.enc.grp, st := .done }
  | group (grp : EncGroups s) (w : GroupWord) :
      StepOnEnc s { s.enc with
        out := s.enc.out.writeUnits (8 * s.enc.grp) (quantumOf w), acc := w, grp := s.enc.grp + 1 }

/-- The registers of DEC after one step of the machine from `s`. -/
inductive StepOnDec (s : State) : DecRegs → Prop where
  | keep : StepOnDec s s.dec
  | host {a : HostAct} {d : DecRegs} (does : HostDoes a s) (on : HostOnDec a s.dec d) : StepOnDec s d
  | finish (fin : DecFinishes s) : StepOnDec s { s.dec with olen := 5 * s.dec.grp, st := .done }
  | group (grp : DecGroups s) (w : GroupWord) :
      StepOnDec s { s.dec with
        out := s.dec.out.writeUnits (5 * s.dec.grp) (unpack40 w), acc := w, grp := s.dec.grp + 1 }
  | groupBadDigit (grp : DecGroups s) :
      StepOnDec s { s.dec with err := .malformed .digit, olen := 0, st := .error }

/-! ### The host's actions -/

/-- A command word runs NOP, ENC.START or DEC.START, and no symbol (R79). -/
theorem writeCmd_cases {w : CmdWord} {i : Instr} {s t : State} (hi : decodeCmd w = .ok i) (h : exec i s = .next t) :
    t = s ∨
    (w = 0b01 ∧ s.enc.st ≠ .busy ∧ t = { s with enc := { s.enc with grp := 0, olen := 0, st := .busy } }) ∨
    (w = 0b10 ∧ s.dec.st ≠ .busy ∧ s.dec.len % 8 ≠ 0 ∧
      t = { s with dec := { s.dec with grp := 0, olen := 0, err := .malformed .length, st := .error } }) ∨
    (w = 0b10 ∧ s.dec.st ≠ .busy ∧ s.dec.len % 8 = 0 ∧
      t = { s with dec := { s.dec with grp := 0, olen := 0, err := .none, st := .busy } }) := by
  rcases exec_cases h with ⟨-, rfl⟩ | ⟨rfl, hb, ht⟩ | ⟨rfl, hb, hl, ht⟩ | ⟨rfl, hb, hl, ht⟩ | ⟨v, hv, -⟩
  · exact .inl rfl
  · exact .inr (.inl ⟨by simpa using decodeCmd_cases hi, hb, ht⟩)
  · exact .inr (.inr (.inl ⟨by simpa using decodeCmd_cases hi, hb, hl, ht⟩))
  · exact .inr (.inr (.inr ⟨by simpa using decodeCmd_cases hi, hb, hl, ht⟩))
  · rcases decodeCmd_cases hi with ⟨-, rfl⟩ | ⟨-, rfl⟩ | ⟨-, rfl⟩ <;> cases hv

/-- What a host action does to either engine. -/
theorem hostAct_on {a : HostAct} {s t : State} (h : hostAct a s = .next t) :
    HostOnEnc a s.enc t.enc ∧ HostOnDec a s.dec t.dec := by
  rcases hostAct_cases h with ⟨rfl, rfl⟩ | ⟨w, i, rfl, hi, hx⟩ | ⟨x, n, rfl, hb, rfl⟩ | ⟨x, i, v, rfl, hb, rfl⟩ | own
  · exact ⟨.reset _, .reset _⟩
  · rcases writeCmd_cases hi hx with rfl | ⟨rfl, hb, rfl⟩ | ⟨rfl, hb, hl, rfl⟩ | ⟨rfl, hb, hl, rfl⟩
    · exact ⟨.keep _ _, .keep _ _⟩
    · exact ⟨.start hb, .keep _ _⟩
    · exact ⟨.keep _ _, .startBadLength hb hl⟩
    · exact ⟨.keep _ _, .start hb hl⟩
  · cases x with
    | enc => exact ⟨.writeLen n hb, .keep _ _⟩
    | dec => exact ⟨.keep _ _, .writeLen n hb⟩
  · cases x with
    | enc => exact ⟨.writeIn i v hb, .keep _ _⟩
    | dec => exact ⟨.keep _ _, .writeIn i v hb⟩
  · have ⟨henc, hdec⟩ : t.enc = s.enc ∧ t.dec = s.dec := by
      rcases own with ⟨_, -, rfl⟩ | ⟨_, -, rfl | rfl⟩ | ⟨_, _, -, -, rfl⟩ | ⟨_, rfl⟩ <;> exact ⟨rfl, rfl⟩
    exact ⟨henc ▸ .keep _ _, hdec ▸ .keep _ _⟩

/-- Only reset, among the host's actions, writes `ENC.OUT` or `ENC.ACC`. -/
theorem HostOnEnc.out_acc {a : HostAct} {e e' : EncRegs} (h : HostOnEnc a e e') (ha : a ≠ .rst) :
    e'.out = e.out ∧ e'.acc = e.acc := by
  cases h with
  | reset => exact absurd rfl ha
  | keep | start | writeLen | writeIn => exact ⟨rfl, rfl⟩

/-- Only reset, among the host's actions, writes `DEC.OUT` or `DEC.ACC`. -/
theorem HostOnDec.out_acc {a : HostAct} {d d' : DecRegs} (h : HostOnDec a d d') (ha : a ≠ .rst) :
    d'.out = d.out ∧ d'.acc = d.acc := by
  cases h with
  | reset => exact absurd rfl ha
  | keep | start | startBadLength | writeLen | writeIn => exact ⟨rfl, rfl⟩

/-! ### The engines' turns -/

/-- ENC's turn leaves its operands, DEC and the model's own fields alone (R21, R29, R66). -/
theorem encTurn_frame {s t : State} (h : encTurn s = .next t) :
    t.enc.inp = s.enc.inp ∧ t.enc.len = s.enc.len ∧ t.dec = s.dec ∧ t.script = s.script ∧ t.turns = s.turns ∧
      t.tick = s.tick ∧ t.replies = s.replies := by
  rcases encTurn_cases h with ⟨-, rfl⟩ | ⟨-, -, rfl⟩ | ⟨-, -, _, _, _, _, _, -, rfl⟩ <;>
    exact ⟨rfl, rfl, rfl, rfl, rfl, rfl, rfl⟩

/-- DEC's turn leaves its operands, ENC and the model's own fields alone (R22, R29, R66). -/
theorem decTurn_frame {s t : State} (h : decTurn s = .next t) :
    t.dec.inp = s.dec.inp ∧ t.dec.len = s.dec.len ∧ t.enc = s.enc ∧ t.script = s.script ∧ t.turns = s.turns ∧
      t.tick = s.tick ∧ t.replies = s.replies := by
  rcases decTurn_cases h with ⟨-, rfl⟩ | ⟨-, -, rfl⟩ | ⟨-, -, _, _, -, -, rfl⟩ | ⟨-, -, -, rfl⟩ <;>
    exact ⟨rfl, rfl, rfl, rfl, rfl, rfl, rfl⟩

theorem encTurn_onEnc {s t u : State} (ha : (takeTurn s).1 = .enc) (hu : u.enc = s.enc) (h : encTurn u = .next t) :
    StepOnEnc s t.enc := by
  rcases encTurn_cases h with ⟨-, rfl⟩ | ⟨hb, hl, rfl⟩ | ⟨hb, hl, b0, b1, b2, b3, b4, -, rfl⟩
  · exact hu ▸ .keep
  · rw [hu] at hb hl
    rw [encFinish_enc, hu]
    exact .finish ⟨ha, hb, hl⟩
  · rw [hu] at hb hl
    rw [hu]
    exact .group ⟨ha, hb, hl⟩ (pack40 b0 b1 b2 b3 b4)

theorem decTurn_onDec {s t u : State} (ha : (takeTurn s).1 = .dec) (hu : u.dec = s.dec) (h : decTurn u = .next t) :
    StepOnDec s t.dec := by
  rcases decTurn_cases h with ⟨-, rfl⟩ | ⟨hb, hl, rfl⟩ | ⟨hb, hl, cs, vs, -, -, rfl⟩ | ⟨hb, hl, -, rfl⟩
  · exact hu ▸ .keep
  · rw [hu] at hb hl
    rw [decFinish_dec, hu]
    exact .finish ⟨ha, hb, hl⟩
  · rw [hu] at hb hl
    rw [hu]
    exact .group ⟨ha, hb, hl⟩ (fold40 vs)
  · rw [hu] at hb hl
    rw [raiseMalformed_dec, hu]
    exact .groupBadDigit ⟨ha, hb, hl⟩

/-! ### One step -/

/-- A host step that answers either finds no action to do, or does the first one of the script. -/
theorem hostStep_cases {s t : State} (ha : (takeTurn s).1 = .host) (h : hostTurn (takeTurn s).2 = .next t) :
    (t.enc = s.enc ∧ t.dec = s.dec) ∨
    ∃ a u, HostDoes a s ∧ u.enc = s.enc ∧ u.dec = s.dec ∧ hostAct a u = .next t := by
  obtain ⟨henc, hdec, hscript, -⟩ := takeTurn_frame s
  rcases hostTurn_cases h with ⟨-, rfl⟩ | ⟨a, rest, hs, hact⟩
  · exact .inl ⟨henc, hdec⟩
  · have hhead : s.script.head? = some a := by rw [← hscript, hs, List.head?_cons]
    exact .inr ⟨a, { (takeTurn s).2 with script := rest }, ⟨ha, hhead⟩, henc, hdec, hact⟩

/-- What a step does to either engine. -/
theorem step_on {s t : State} (h : step s = .next t) : StepOnEnc s t.enc ∧ StepOnDec s t.dec := by
  obtain ⟨henc, hdec, -⟩ := takeTurn_frame s
  rcases step_cases h with ⟨ha, ht⟩ | ⟨ha, ht⟩ | ⟨ha, ht⟩
  · rcases hostStep_cases ha ht with ⟨he, hd⟩ | ⟨a, u, does, he, hd, hact⟩
    · exact ⟨he ▸ .keep, hd ▸ .keep⟩
    · obtain ⟨onEnc, onDec⟩ := hostAct_on hact
      exact ⟨.host does (he ▸ onEnc), .host does (hd ▸ onDec)⟩
  · obtain ⟨-, -, hd, -⟩ := encTurn_frame ht
    exact ⟨encTurn_onEnc ha henc ht, hd ▸ hdec ▸ .keep⟩
  · obtain ⟨-, -, he, -⟩ := decTurn_frame ht
    exact ⟨he ▸ henc ▸ .keep, decTurn_onDec ha hdec ht⟩

end Sys2Proof.Machine
end

section
/-! CERTIFICATE. The invariant of the machine: it holds at reset, and every transition of either engine keeps it. -/

namespace Sys2Proof.Machine

/-! ### What the GROUP steps write -/

/-- Each of the eight units of a quantum is a symbol (R130). -/
theorem quantumOf_getElem? (w : GroupWord) {k : Nat} (hk : k < 8) : ∃ v, (quantumOf w)[k]? = some (alphabet v) := by
  have h : ∀ c ∈ quantumOf w, ∃ v, c = alphabet v := by simp [quantumOf, fwdLookup]
  have hlt : k < (quantumOf w).length := hk
  obtain ⟨v, hv⟩ := h _ (List.getElem_mem hlt)
  exact ⟨v, by rw [List.getElem?_eq_getElem hlt, hv]⟩

theorem unpack40_length (w : GroupWord) : (unpack40 w).length = 5 := rfl

/-- After a quantum is written at `8g`, every cell below `8(g+1)` holds a symbol if every cell below `8g` did. -/
theorem read_writeQuantum_symbol {m : Memory} {g : Nat} (h : ∀ i, i < 8 * g → ∃ v, m.read i = some (alphabet v))
    (w : GroupWord) {i : Nat} (hi : i < 8 * (g + 1)) : ∃ v, (m.writeUnits (8 * g) (quantumOf w)).read i = some (alphabet v) := by
  rcases Nat.lt_or_ge i (8 * g) with hlt | hge
  · rw [Memory.read_writeUnits_outside _ _ (.inl hlt)]
    exact h i hlt
  · obtain ⟨k, rfl⟩ := Nat.exists_eq_add_of_le hge
    have hk : k < 8 := by omega
    rw [Memory.read_writeUnits_inside (quantumOf w) _ hk]
    exact quantumOf_getElem? w hk

/-- After five bytes are written at `5g`, every cell below `5(g+1)` holds a value if every cell below `5g` did. -/
theorem read_writeBytes_isSome {m : Memory} {g : Nat} (h : ∀ i, i < 5 * g → (m.read i).isSome = true)
    (w : GroupWord) {i : Nat} (hi : i < 5 * (g + 1)) : ((m.writeUnits (5 * g) (unpack40 w)).read i).isSome = true := by
  rcases Nat.lt_or_ge i (5 * g) with hlt | hge
  · rw [Memory.read_writeUnits_outside _ _ (.inl hlt)]
    exact h i hlt
  · obtain ⟨k, rfl⟩ := Nat.exists_eq_add_of_le hge
    have hk : k < (unpack40 w).length := by rw [unpack40_length]; omega
    rw [Memory.read_writeUnits_inside _ _ hk, List.getElem?_eq_getElem hk, Option.isSome_some]

/-! ### The encoder -/

theorem encInv_reset : EncInv State.reset.enc where
  inpWf := List.Pairwise.nil
  outWf := List.Pairwise.nil
  notError := by decide
  idleGrp _ := rfl
  olenZero _ := rfl
  olenDone _ := rfl
  busyGrp h := nomatch h
  outSymbol _ i hi := absurd hi (Nat.not_lt_zero i)

theorem HostOnEnc.keeps_inv {a : HostAct} {e e' : EncRegs} (h : HostOnEnc a e e') (inv : EncInv e) : EncInv e' := by
  cases h with
  | keep => exact inv
  | reset => exact encInv_reset
  | start => exact { inv with
      notError := nofun
      idleGrp := nofun
      olenZero _ := rfl
      olenDone := nofun
      busyGrp _ := by simp
      outSymbol _ i hi := absurd hi (Nat.not_lt_zero i) }
  | writeLen n free => exact { inv with busyGrp hb := absurd hb free }
  | writeIn i v => exact { inv with inpWf := Memory.write_wf inv.inpWf i v }

theorem StepOnEnc.keeps_inv {s : State} {e : EncRegs} (h : StepOnEnc s e) (inv : EncInv s.enc) : EncInv e := by
  cases h with
  | keep => exact inv
  | host _ on => exact on.keeps_inv inv
  | finish fin =>
    obtain ⟨-, busy, -⟩ := fin
    exact { inv with
      notError := nofun
      idleGrp := nofun
      olenZero hd := absurd rfl hd
      olenDone _ := rfl
      busyGrp := nofun
      outSymbol _ := inv.outSymbol (.inl busy) }
  | group grp w =>
    obtain ⟨-, busy, lt⟩ := grp
    exact { inv with
      outWf := Memory.writeUnits_wf inv.outWf _ _
      idleGrp hi := by simp [busy] at hi
      olenDone hd := by simp [busy] at hd
      busyGrp _ := by dsimp only; omega
      outSymbol _ i hi := read_writeQuantum_symbol (inv.outSymbol (.inl busy)) w hi }

/-! ### The decoder -/

theorem decInv_reset : DecInv State.reset.dec where
  inpWf := List.Pairwise.nil
  outWf := List.Pairwise.nil
  errIff := by decide
  idleGrp _ := rfl
  olenZero _ := rfl
  olenDone _ := rfl
  busyLen h := nomatch h
  outSome _ i hi := absurd hi (Nat.not_lt_zero i)

/-- An error taken from a good state, at START or at a GROUP step, ends in a good state (R210): `ERR` says so, `OLEN` is
zero, and every other clause speaks of a status that is left. -/
theorem DecInv.error {d : DecRegs} (inv : DecInv d) (c : Cause) (g : Nat) :
    DecInv { d with grp := g, olen := 0, err := .malformed c, st := .error } :=
  { inv with
    errIff := by simp
    idleGrp := nofun
    olenZero _ := rfl
    olenDone := nofun
    busyLen := nofun
    outSome := by simp }

theorem HostOnDec.keeps_inv {a : HostAct} {d d' : DecRegs} (h : HostOnDec a d d') (inv : DecInv d) : DecInv d' := by
  cases h with
  | keep => exact inv
  | reset => exact decInv_reset
  | start _ len => exact { inv with
      errIff := by simp
      idleGrp := nofun
      olenZero _ := rfl
      olenDone := nofun
      busyLen _ := ⟨len, Nat.zero_le _⟩
      outSome _ i hi := absurd hi (Nat.not_lt_zero i) }
  | startBadLength => exact inv.error .length 0
  | writeLen n free => exact { inv with busyLen hb := absurd hb free }
  | writeIn i v => exact { inv with inpWf := Memory.write_wf inv.inpWf i v }

theorem StepOnDec.keeps_inv {s : State} {d : DecRegs} (h : StepOnDec s d) (inv : DecInv s.dec) : DecInv d := by
  cases h with
  | keep => exact inv
  | host _ on => exact on.keeps_inv inv
  | finish fin =>
    obtain ⟨-, busy, -⟩ := fin
    have noErr : s.dec.err = .none := by
      by_contra he
      simp [inv.errIff.1 he] at busy
    exact { inv with
      errIff := by simp [noErr]
      idleGrp := nofun
      olenZero hd := absurd rfl hd
      olenDone _ := rfl
      busyLen := nofun
      outSome _ := inv.outSome (.inl busy) }
  | group grp w =>
    obtain ⟨-, busy, lt⟩ := grp
    obtain ⟨whole, -⟩ := inv.busyLen busy
    exact { inv with
      outWf := Memory.writeUnits_wf inv.outWf _ _
      idleGrp hi := by simp [busy] at hi
      olenDone hd := by simp [busy] at hd
      busyLen _ := ⟨whole, by dsimp only; omega⟩
      outSome _ i hi := read_writeBytes_isSome (inv.outSome (.inl busy)) w hi }
  | groupBadDigit => exact inv.error .digit s.dec.grp

/-! ### The machine -/

/-- Settles O2: both engines are good at reset. -/
theorem resetIsAGoodState : Obligations.ResetIsAGoodState := ⟨encInv_reset, decInv_reset⟩

/-- Settles O51: a step is one transition of each engine's registers, and each transition keeps that engine's invariant. -/
theorem everyStepKeepsTheInvariant : Obligations.EveryStepKeepsTheInvariant :=
  fun _ _ good h =>
    have ⟨onEnc, onDec⟩ := step_on h
    ⟨onEnc.keeps_inv good.enc, onDec.keeps_inv good.dec⟩

end Sys2Proof.Machine
end

section
/-! CERTIFICATE. Who writes each register of the two engines, over every step, read off the transitions. -/

namespace Sys2Proof.Machine

section

variable {s : State} {e : EncRegs} {d : DecRegs}

/-! ### Counters and accumulators -/

/-- Only START, GROUP and reset write `ENC.GRP`, and only GROUP and reset `ENC.ACC` (R21, R24). -/
theorem StepOnEnc.grp_acc_writers (h : StepOnEnc s e) :
    (e.grp = s.enc.grp ∧ e.acc = s.enc.acc) ∨ (EncGroups s ∧ e.grp = s.enc.grp + 1) ∨
    (HostDoes (.writeCmd 0b01) s ∧ e.grp = 0 ∧ e.acc = s.enc.acc) ∨ (HostDoes .rst s ∧ e.grp = 0) := by
  cases h with
  | keep | finish => exact .inl ⟨rfl, rfl⟩
  | group grp => exact .inr (.inl ⟨grp, rfl⟩)
  | host does on =>
    cases on with
    | keep | writeLen | writeIn => exact .inl ⟨rfl, rfl⟩
    | start => exact .inr (.inr (.inl ⟨does, rfl, rfl⟩))
    | reset => exact .inr (.inr (.inr ⟨does, rfl⟩))

/-- Only START, GROUP and reset write `DEC.GRP`, and only GROUP and reset `DEC.ACC` (R22, R24). -/
theorem StepOnDec.grp_acc_writers (h : StepOnDec s d) :
    (d.grp = s.dec.grp ∧ d.acc = s.dec.acc) ∨ (DecGroups s ∧ d.grp = s.dec.grp + 1) ∨
    (HostDoes (.writeCmd 0b10) s ∧ d.grp = 0 ∧ d.acc = s.dec.acc) ∨ (HostDoes .rst s ∧ d.grp = 0) := by
  cases h with
  | keep | finish | groupBadDigit => exact .inl ⟨rfl, rfl⟩
  | group grp => exact .inr (.inl ⟨grp, rfl⟩)
  | host does on =>
    cases on with
    | keep | writeLen | writeIn => exact .inl ⟨rfl, rfl⟩
    | start | startBadLength => exact .inr (.inr (.inl ⟨does, rfl, rfl⟩))
    | reset => exact .inr (.inr (.inr ⟨does, rfl⟩))

/-! ### Every register -/

/-- The columns 'written by' of R21 and R29 for ENC. In each case of the proof the seven answers stand in the order of the
statement: `ST`, `LEN`, `GRP`, `ACC`, `OLEN`, `IN`, `OUT`. -/
theorem StepOnEnc.writers (h : StepOnEnc s e) :
    (e.st = s.enc.st ∨ HostDoes .rst s ∨ EncStarts s ∨ EncFinishes s) ∧
    (e.len = s.enc.len ∨ HostDoes .rst s ∧ e.len = 0 ∨ HostDoes (.writeLen .enc e.len) s ∧ s.enc.st ≠ .busy) ∧
    (e.grp = s.enc.grp ∨ HostDoes .rst s ∧ e.grp = 0 ∨ EncStarts s ∧ e.grp = 0 ∨
      EncGroups s ∧ e.grp = s.enc.grp + 1) ∧
    (e.acc = s.enc.acc ∨ HostDoes .rst s ∨ EncGroups s) ∧
    (e.olen = s.enc.olen ∨ HostDoes .rst s ∧ e.olen = 0 ∨ EncStarts s ∧ e.olen = 0 ∨
      EncFinishes s ∧ e.olen = 8 * s.enc.grp) ∧
    (e.inp = s.enc.inp ∨ HostDoes .rst s ∨ ∃ i v, HostDoes (.writeIn .enc i v) s ∧ s.enc.st ≠ .busy) ∧
    (e.out = s.enc.out ∨ HostDoes .rst s ∨ EncGroups s) := by
  cases h with
  | keep => exact ⟨.inl rfl, .inl rfl, .inl rfl, .inl rfl, .inl rfl, .inl rfl, .inl rfl⟩
  | finish fin =>
    exact ⟨.inr (.inr (.inr fin)), .inl rfl, .inl rfl, .inl rfl, .inr (.inr (.inr ⟨fin, rfl⟩)), .inl rfl, .inl rfl⟩
  | group grp =>
    exact ⟨.inl rfl, .inl rfl, .inr (.inr (.inr ⟨grp, rfl⟩)), .inr (.inr grp), .inl rfl, .inl rfl, .inr (.inr grp)⟩
  | host does on =>
    cases on with
    | keep => exact ⟨.inl rfl, .inl rfl, .inl rfl, .inl rfl, .inl rfl, .inl rfl, .inl rfl⟩
    | reset =>
      exact ⟨.inr (.inl does), .inr (.inl ⟨does, rfl⟩), .inr (.inl ⟨does, rfl⟩), .inr (.inl does),
        .inr (.inl ⟨does, rfl⟩), .inr (.inl does), .inr (.inl does)⟩
    | start free =>
      exact ⟨.inr (.inr (.inl ⟨does, free⟩)), .inl rfl, .inr (.inr (.inl ⟨⟨does, free⟩, rfl⟩)), .inl rfl,
        .inr (.inr (.inl ⟨⟨does, free⟩, rfl⟩)), .inl rfl, .inl rfl⟩
    | writeLen n free =>
      exact ⟨.inl rfl, .inr (.inr ⟨does, free⟩), .inl rfl, .inl rfl, .inl rfl, .inl rfl, .inl rfl⟩
    | writeIn i v free =>
      exact ⟨.inl rfl, .inl rfl, .inl rfl, .inl rfl, .inl rfl, .inr (.inr ⟨i, v, does, free⟩), .inl rfl⟩

/-- The columns 'written by' of R22, R27 and R29 for DEC. In each case of the proof the eight answers stand in the order of the
statement: `ST`, `LEN`, `GRP`, `ACC`, `OLEN`, `ERR`, `IN`, `OUT`. -/
theorem StepOnDec.writers (h : StepOnDec s d) :
    (d.st = s.dec.st ∨ HostDoes .rst s ∨ DecStarts s ∨ DecGroups s ∧ d.st = .error ∨ DecFinishes s) ∧
    (d.len = s.dec.len ∨ HostDoes .rst s ∧ d.len = 0 ∨ HostDoes (.writeLen .dec d.len) s ∧ s.dec.st ≠ .busy) ∧
    (d.grp = s.dec.grp ∨ HostDoes .rst s ∧ d.grp = 0 ∨ DecStarts s ∧ d.grp = 0 ∨
      DecGroups s ∧ d.grp = s.dec.grp + 1) ∧
    (d.acc = s.dec.acc ∨ HostDoes .rst s ∨ DecGroups s ∧ d.st = .busy) ∧
    (d.olen = s.dec.olen ∨ HostDoes .rst s ∧ d.olen = 0 ∨ DecStarts s ∧ d.olen = 0 ∨
      DecGroups s ∧ d.st = .error ∧ d.olen = 0 ∨ DecFinishes s ∧ d.olen = 5 * s.dec.grp) ∧
    (d.err = s.dec.err ∨ HostDoes .rst s ∧ d.err = .none ∨
      DecStarts s ∧ d.err = (if s.dec.len % 8 = 0 then .none else .malformed .length) ∨
      DecGroups s ∧ d.st = .error ∧ d.err = .malformed .digit) ∧
    (d.inp = s.dec.inp ∨ HostDoes .rst s ∨ ∃ i v, HostDoes (.writeIn .dec i v) s ∧ s.dec.st ≠ .busy) ∧
    (d.out = s.dec.out ∨ HostDoes .rst s ∨ DecGroups s ∧ d.st = .busy) := by
  cases h with
  | keep => exact ⟨.inl rfl, .inl rfl, .inl rfl, .inl rfl, .inl rfl, .inl rfl, .inl rfl, .inl rfl⟩
  | finish fin =>
    exact ⟨.inr (.inr (.inr (.inr fin))), .inl rfl, .inl rfl, .inl rfl, .inr (.inr (.inr (.inr ⟨fin, rfl⟩))),
      .inl rfl, .inl rfl, .inl rfl⟩
  | group grp =>
    have ⟨_, busy, _⟩ := grp
    exact ⟨.inl rfl, .inl rfl, .inr (.inr (.inr ⟨grp, rfl⟩)), .inr (.inr ⟨grp, busy⟩), .inl rfl, .inl rfl, .inl rfl,
      .inr (.inr ⟨grp, busy⟩)⟩
  | groupBadDigit grp =>
    exact ⟨.inr (.inr (.inr (.inl ⟨grp, rfl⟩))), .inl rfl, .inl rfl, .inl rfl,
      .inr (.inr (.inr (.inl ⟨grp, rfl, rfl⟩))), .inr (.inr (.inr ⟨grp, rfl, rfl⟩)), .inl rfl, .inl rfl⟩
  | host does on =>
    cases on with
    | keep => exact ⟨.inl rfl, .inl rfl, .inl rfl, .inl rfl, .inl rfl, .inl rfl, .inl rfl, .inl rfl⟩
    | reset =>
      exact ⟨.inr (.inl does), .inr (.inl ⟨does, rfl⟩), .inr (.inl ⟨does, rfl⟩), .inr (.inl does),
        .inr (.inl ⟨does, rfl⟩), .inr (.inl ⟨does, rfl⟩), .inr (.inl does), .inr (.inl does)⟩
    | start free len =>
      exact ⟨.inr (.inr (.inl ⟨does, free⟩)), .inl rfl, .inr (.inr (.inl ⟨⟨does, free⟩, rfl⟩)), .inl rfl,
        .inr (.inr (.inl ⟨⟨does, free⟩, rfl⟩)), .inr (.inr (.inl ⟨⟨does, free⟩, (if_pos len).symm⟩)), .inl rfl, .inl rfl⟩
    | startBadLength free len =>
      exact ⟨.inr (.inr (.inl ⟨does, free⟩)), .inl rfl, .inr (.inr (.inl ⟨⟨does, free⟩, rfl⟩)), .inl rfl,
        .inr (.inr (.inl ⟨⟨does, free⟩, rfl⟩)), .inr (.inr (.inl ⟨⟨does, free⟩, (if_neg len).symm⟩)), .inl rfl, .inl rfl⟩
    | writeLen n free =>
      exact ⟨.inl rfl, .inr (.inr ⟨does, free⟩), .inl rfl, .inl rfl, .inl rfl, .inl rfl, .inl rfl, .inl rfl⟩
    | writeIn i v free =>
      exact ⟨.inl rfl, .inl rfl, .inl rfl, .inl rfl, .inl rfl, .inl rfl, .inr (.inr ⟨i, v, does, free⟩), .inl rfl⟩

end

/-! ### Over every step -/

/-- Settles O26: a step is one transition of each engine's registers; who writes the counter and the accumulator is read off it. -/
theorem groupCountersAndAccumulators : Obligations.GroupCountersAndAccumulators := by
  intro s t h
  obtain ⟨onEnc, onDec⟩ := step_on h
  have hE := onEnc.grp_acc_writers
  have hD := onDec.grp_acc_writers
  simp only [and_assoc] at hE hD
  exact ⟨hE, hD⟩

/-- Settles O24: the engines' turns by their frames, the host's actions by what they do to each engine, and a step by the
transition it makes of each engine's registers. -/
theorem writersOfEachRegister : Obligations.WritersOfEachRegister := by
  refine ⟨fun s t h => ?_, fun s t h => ?_, fun a s t ha h => ?_, fun s t h => (step_on h).1.writers,
    fun s t h => (step_on h).2.writers⟩
  · obtain ⟨inp, len, -, own⟩ := encTurn_frame h
    exact ⟨inp, len, own⟩
  · obtain ⟨inp, len, -, own⟩ := decTurn_frame h
    exact ⟨inp, len, own⟩
  · obtain ⟨onEnc, onDec⟩ := hostAct_on h
    obtain ⟨encOut, encAcc⟩ := onEnc.out_acc ha
    obtain ⟨decOut, decAcc⟩ := onDec.out_acc ha
    exact ⟨encOut, decOut, encAcc, decAcc⟩

end Sys2Proof.Machine
end

section
/-! CERTIFICATE. Reset, and the host's reads and writes. -/

namespace Sys2Proof.Machine

/-- Settles O1: the values are those of `State.reset`, and an empty buffer holds no value at any index. -/
theorem resetLeavesTheBlockIdle : Obligations.ResetLeavesTheBlockIdle := by
  have noValue : ∀ sp i, memRead sp i State.reset = none := by
    intro sp i
    cases sp <;> exact Memory.read_nil i
  exact ⟨rfl, rfl, rfl, rfl, rfl, rfl, rfl, rfl, rfl, noValue⟩

/-- Settles O29: each port's equation, and the frames of the two writes. -/
theorem hostPortsAnswer : Obligations.HostPortsAnswer := by
  intro s x i v n
  refine ⟨rfl, fun free => ⟨hostAct_readOlen free, hostAct_readLen free, ?_, ?_, fun w hw => hostAct_readIn_of_some free hw⟩,
    hostAct_readErr⟩
  · refine ⟨s.setLen x n, hostAct_writeLen free n, len_setLen_same s x n, fun y hy => len_setLen_other s n hy, ?_⟩
    simp
  · refine ⟨memWrite (inSpace x) i v s, hostAct_writeIn free i v, memRead_memWrite_same _ i v s,
      fun sp j hne => memRead_memWrite_other v s hne, ?_⟩
    simp

/-- The unit at an index of a result of a good state, for either engine (R29). -/
theorem GoodState.result_isSome {s : State} (good : GoodState s) {x : Engine} {i : Nat} (hd : s.st x = .done)
    (hi : i < s.olen x) : ∃ v, memRead (outSpace x) i s = some v ∧ (x = .enc → ∃ w, v = alphabet w) := by
  cases x with
  | enc =>
    rw [olen_enc, good.enc.olenDone hd] at hi
    obtain ⟨w, hw⟩ := good.enc.outSymbol (.inr hd) i hi
    exact ⟨alphabet w, hw, fun _ => ⟨w, rfl⟩⟩
  | dec =>
    rw [olen_dec, good.dec.olenDone hd] at hi
    obtain ⟨v, hv⟩ := Option.isSome_iff_exists.1 (good.dec.outSome (.inr hd) i hi)
    exact ⟨v, hv, nofun⟩

/-- Settles O30: in a good state the cells of a result hold values, so the port answers with them. -/
theorem resultsAreReadable : Obligations.ResultsAreReadable := by
  intro s x i good hd hi
  obtain ⟨v, hv, hsym⟩ := good.result_isSome hd hi
  exact ⟨v, hv, hostAct_readOut_of_some hd hi hv, hsym⟩

/-- Settles O56: each clause is the refusal of the port it names. -/
theorem inputReadsAreRefusedWhenUnwrittenOrBusy : Obligations.InputReadsAreRefusedWhenUnwrittenOrBusy := by
  intro s x i
  exact ⟨hostAct_readIn_of_none, hostAct_readOut_of_none, fun busy => ⟨hostAct_readLen_busy busy, hostAct_readIn_busy busy i⟩⟩

end Sys2Proof.Machine
end

section
/-! CERTIFICATE. The engines share no state (R66): what an engine's turn answers does not depend on the other engine's registers
and buffers, so the two turns commute. -/

namespace Sys2Proof.Machine

/-! ### What a turn answers, an equation per case -/

section

variable {s : State}

theorem encTurn_of_not_busy (free : s.enc.st ≠ .busy) : encTurn s = .next s := if_neg free

theorem encTurn_of_all_encoded (busy : s.enc.st = .busy) (all : s.enc.len ≤ 5 * s.enc.grp) :
    encTurn s = .next (encFinish s) := by
  rw [encTurn, if_pos busy, if_neg (by omega)]

theorem encTurn_of_operands {b0 b1 b2 b3 b4 : Byte} (busy : s.enc.st = .busy) (lt : 5 * s.enc.grp < s.enc.len)
    (ops : encOperands s s.enc.grp = some (b0, b1, b2, b3, b4)) :
    encTurn s = .next { s with enc := { s.enc with
      out := s.enc.out.writeUnits (8 * s.enc.grp) (quantumOf (pack40 b0 b1 b2 b3 b4)),
      acc := pack40 b0 b1 b2 b3 b4, grp := s.enc.grp + 1 } } := by
  rw [encTurn, if_pos busy, if_pos lt, encGroup, ops]
  rfl

theorem decTurn_of_not_busy (free : s.dec.st ≠ .busy) : decTurn s = .next s := if_neg free

theorem decTurn_of_all_decoded (busy : s.dec.st = .busy) (all : s.dec.len ≤ 8 * s.dec.grp) :
    decTurn s = .next (decFinish s) := by
  rw [decTurn, if_pos busy, if_neg (by omega)]

theorem decTurn_of_symbols {cs : List Byte} {vs : List Val5} (busy : s.dec.st = .busy) (lt : 8 * s.dec.grp < s.dec.len)
    (ops : decOperands s s.dec.grp = some cs) (symbols : cs.mapM rev = some vs) :
    decTurn s = .next { s with dec := { s.dec with
      out := s.dec.out.writeUnits (5 * s.dec.grp) (unpack40 (fold40 vs)),
      acc := fold40 vs, grp := s.dec.grp + 1 } } := by
  rw [decTurn, if_pos busy, if_pos lt, decGroup, ops]
  exact decLoop_of_symbols s cs vs symbols _

theorem decTurn_of_foreign {cs : List Byte} (busy : s.dec.st = .busy) (lt : 8 * s.dec.grp < s.dec.len)
    (ops : decOperands s s.dec.grp = some cs) (foreign : ∃ c ∈ cs, rev c = none) :
    decTurn s = .next (raiseMalformed .digit s) := by
  rw [decTurn, if_pos busy, if_pos lt, decGroup, ops]
  exact decLoop_of_foreign s cs foreign _

end

/-! ### A turn reads nothing of the other engine -/

/-- Whatever DEC holds, ENC's turn answers alike: its guard, its operands and its result are ENC's own. -/
theorem encTurn_setDec {s t : State} (h : encTurn s = .next t) (d : DecRegs) :
    encTurn { s with dec := d } = .next { t with dec := d } := by
  rcases encTurn_cases h with ⟨free, rfl⟩ | ⟨busy, all, rfl⟩ | ⟨busy, lt, b0, b1, b2, b3, b4, ops, rfl⟩
  · exact encTurn_of_not_busy free
  · exact encTurn_of_all_encoded busy all
  · exact encTurn_of_operands busy lt ops

/-- Whatever ENC holds, DEC's turn answers alike: its guard, its operands and its result are DEC's own. -/
theorem decTurn_setEnc {s t : State} (h : decTurn s = .next t) (e : EncRegs) :
    decTurn { s with enc := e } = .next { t with enc := e } := by
  rcases decTurn_cases h with ⟨free, rfl⟩ | ⟨busy, all, rfl⟩ | ⟨busy, lt, cs, vs, ops, symbols, rfl⟩ |
    ⟨busy, lt, ⟨cs, ops, foreign⟩, rfl⟩
  · exact decTurn_of_not_busy free
  · exact decTurn_of_all_decoded busy all
  · exact decTurn_of_symbols busy lt ops symbols
  · exact decTurn_of_foreign busy lt ops foreign

/-! ### A turn writes nothing but its own engine -/

theorem encTurn_eq_setEnc {s t : State} (h : encTurn s = .next t) : t = { s with enc := t.enc } := by
  obtain ⟨-, -, dec, script, turns, tick, replies⟩ := encTurn_frame h
  rw [← dec, ← script, ← turns, ← tick, ← replies]

theorem decTurn_eq_setDec {s t : State} (h : decTurn s = .next t) : t = { s with dec := t.dec } := by
  obtain ⟨-, -, enc, script, turns, tick, replies⟩ := decTurn_frame h
  rw [← enc, ← script, ← turns, ← tick, ← replies]

/-- Settles O23: each turn writes its own engine only (the frames), and what it writes does not depend on the other engine, so
either order ends with ENC as its turn leaves it and DEC as its turn leaves it. -/
theorem engineStepsCommute : Obligations.EngineStepsCommute := by
  refine ⟨fun s t h => ?_, fun s t h => ?_, fun s t u hEnc hDec => ?_⟩
  · obtain ⟨-, -, dec, -⟩ := encTurn_frame h
    exact dec
  · obtain ⟨-, -, enc, -⟩ := decTurn_frame h
    exact enc
  · have ht : t = { s with enc := t.enc } := encTurn_eq_setEnc hEnc
    have hu : u = { s with dec := u.dec } := decTurn_eq_setDec hDec
    have decAfterEnc : decTurn t = .next { u with enc := t.enc } := ht ▸ decTurn_setEnc hDec t.enc
    have encAfterDec : encTurn u = .next { t with dec := u.dec } := hu ▸ encTurn_setDec hEnc u.dec
    have sameState : { t with dec := u.dec } = { u with enc := t.enc } := by rw [ht, hu]
    exact ⟨_, decAfterEnc, sameState ▸ encAfterDec⟩

end Sys2Proof.Machine
end

section
/-! SUPPORT. What decoding and encoding say of each other: on one byte, on a list, and on a word of the opcode table (R79, R87,
R100). -/

namespace Sys2Proof

/-- A row whose mask covers the whole word matches its pattern only: no bit of the word is free. -/
theorem Row.eq_pattern_of_matches {w : Nat} {r : Row w} {x : BitVec w} (full : r.mask = BitVec.allOnes w)
    (h : r.matches x = true) : x = r.pattern := by
  rw [Row.matches, full, BitVec.and_allOnes] at h
  exact eq_of_beq h

/-- Every row of format SYM fixes all eight bits, to the word of its instruction (R100). -/
theorem symRows_full : ∀ r ∈ symRows, r.mask = BitVec.allOnes 8 ∧ encode r.instr = r.pattern := by decide

/-- A command word is the word of the command it decodes to, in its byte. -/
theorem encode_of_decodeCmd {w : CmdWord} {i : Instr} (h : decodeCmd w = .ok i) : encode i = w.setWidth 8 := by
  rcases Machine.decodeCmd_cases h with ⟨rfl, rfl⟩ | ⟨rfl, rfl⟩ | ⟨rfl, rfl⟩ <;> rfl

/-- A code unit is the word of the symbol it decodes to. -/
theorem encode_of_decodeUnit {c : Byte} {i : Instr} (h : decodeUnit c = .ok i) : encode i = c := by
  unfold decodeUnit at h
  split at h
  · rename_i r hr
    cases h
    obtain ⟨full, word⟩ := symRows_full r (List.mem_of_find?_eq_some hr)
    rw [word, Row.eq_pattern_of_matches full (List.find?_some (p := fun r : Row 8 => r.matches c) hr)]
  · cases h

/-- Each of the 35 words has the meaning it encodes. -/
theorem decodeByte_encode (i : Instr) : decodeByte (encode i) = .ok i := by
  cases i <;> rfl

/-- A byte that decodes is the word of its instruction, in either format. -/
theorem encode_of_decodeByte {b : Byte} {i : Instr} (h : decodeByte b = .ok i) : encode i = b := by
  unfold decodeByte at h
  split at h
  · rw [encode_of_decodeCmd h]
    bv_omega
  · exact encode_of_decodeUnit h

/-- A list decodes from a byte on exactly when the byte and the other bytes do. -/
theorem decodeAll_cons_eq_ok {b : Byte} {bs : List Byte} {is : List Instr} :
    decodeAll (b :: bs) = .ok is ↔ ∃ i js, decodeByte b = .ok i ∧ decodeAll bs = .ok js ∧ is = i :: js := by
  rw [decodeAll]
  cases decodeByte b <;> cases decodeAll bs <;> simp [eq_comm]

theorem decodeAll_encodeAll (is : List Instr) : decodeAll (encodeAll is) = .ok is := by
  induction is with
  | nil => rfl
  | cons i is ih => exact decodeAll_cons_eq_ok.2 ⟨i, is, decodeByte_encode i, ih, rfl⟩

theorem encodeAll_of_decodeAll {bs : List Byte} {is : List Instr} (h : decodeAll bs = .ok is) : encodeAll is = bs := by
  induction bs generalizing is with
  | nil => cases h; rfl
  | cons b bs ih =>
    obtain ⟨i, js, hb, hbs, rfl⟩ := decodeAll_cons_eq_ok.1 h
    rw [encodeAll, List.map_cons, encode_of_decodeByte hb, ← encodeAll, ih hbs]

/-- A word of the opcode table is the number of its instruction's byte. -/
theorem eq_encode_of_decodeTableWord {nbits w : Nat} {i : Instr} (h : decodeTableWord nbits w = some i) :
    w = (encode i).toNat := by
  unfold decodeTableWord at h
  split at h
  case isFalse => cases h
  case isTrue fits =>
    have lt : w < 2 ^ 8 := by
      obtain ⟨rfl | rfl, lt⟩ := fits <;> omega
    have ok : decodeByte (BitVec.ofNat 8 w) = .ok i := by
      cases hb : decodeByte (BitVec.ofNat 8 w) with
      | ok j => simpa [decode, hb] using h
      | error e => simp [decode, hb] at h
    rw [encode_of_decodeByte ok, BitVec.toNat_ofNat, Nat.mod_eq_of_lt lt]

/-- An instruction with no value is a command: its byte is its command word. -/
theorem decodeCmd_of_symValue_none {i : Instr} (h : i.symValue = none) :
    (encode i).toNat < 4 ∧ decodeCmd (BitVec.ofNat 2 (encode i).toNat) = .ok i := by
  cases i
  case nop | enc | dec => decide
  all_goals cases h

/-- An instruction with a value is a symbol: its byte is its code unit. -/
theorem decodeUnit_of_symValue_some {i : Instr} (h : i.symValue ≠ none) :
    ¬ (encode i).toNat < 4 ∧ decodeUnit (encode i) = .ok i := by
  have ok := decodeByte_encode i
  unfold decodeByte at ok
  split at ok
  · rcases Machine.decodeCmd_cases ok with ⟨-, rfl⟩ | ⟨-, rfl⟩ | ⟨-, rfl⟩ <;> exact absurd rfl h
  · exact ⟨‹_›, ok⟩

end Sys2Proof
end

section
/-! CERTIFICATE. The encoding: decoding and encoding are inverse, and the layout of the group word. -/

namespace Sys2Proof.Machine

/-- Settles O10: one word and one instruction determine each other, and the induction over the list carries it through. -/
theorem decodeAndEncodeAgree : Obligations.DecodeAndEncodeAgree :=
  ⟨decodeAll_encodeAll, fun _ _ => encodeAll_of_decodeAll⟩

/-! ### The group word -/

/-- The shifts of PACK40 put the five bytes side by side (R70, R124): bit by bit. -/
theorem pack40_eq_append (b0 b1 b2 b3 b4 : Byte) : pack40 b0 b1 b2 b3 b4 = b0 ++ b1 ++ b2 ++ b3 ++ b4 := by
  ext i hi
  simp only [pack40, BitVec.getElem_or, BitVec.getElem_shiftLeft, BitVec.getElem_setWidth]
  grind

theorem pack40_toNat (b0 b1 b2 b3 b4 : Byte) : (pack40 b0 b1 b2 b3 b4).toNat =
    b0.toNat * 2 ^ 32 + b1.toNat * 2 ^ 24 + b2.toNat * 2 ^ 16 + b3.toNat * 2 ^ 8 + b4.toNat := by
  rw [pack40_eq_append]
  simp only [append_toNat]
  omega

/-- Bits `start` and up of a word, as numbers. -/
theorem extractLsb'_toNat_div {n : Nat} (w : BitVec n) (start len : Nat) :
    (w.extractLsb' start len).toNat = w.toNat / 2 ^ start % 2 ^ len := by
  rw [BitVec.extractLsb'_toNat, Nat.shiftRight_eq_div_pow]

/-- UNPACK40 takes back the five bytes PACK40 was given (R159). -/
theorem unpack40_pack40 (b0 b1 b2 b3 b4 : Byte) : unpack40 (pack40 b0 b1 b2 b3 b4) = [b0, b1, b2, b3, b4] := by
  have lt0 := b0.isLt
  have lt1 := b1.isLt
  have lt2 := b2.isLt
  have lt3 := b3.isLt
  have lt4 := b4.isLt
  simp only [unpack40, List.cons.injEq, ← BitVec.toNat_inj, extractLsb'_toNat_div, pack40_toNat, and_true]
  omega

/-- PACK40 of the bytes of a word is the word: no bit is lost between them (R70, R159). -/
theorem pack40_unpack40 (w : GroupWord) :
    pack40 (w.extractLsb' 32 8) (w.extractLsb' 24 8) (w.extractLsb' 16 8) (w.extractLsb' 8 8) (w.extractLsb' 0 8) = w := by
  have lt := w.isLt
  rw [← BitVec.toNat_inj, pack40_toNat]
  simp only [extractLsb'_toNat_div]
  omega

/-- The four fields in order are the word (R71). -/
theorem append_fields (w : GroupWord) : field w 0 ++ field w 1 ++ field w 2 ++ field w 3 = w := by
  have lt := w.isLt
  rw [← BitVec.toNat_inj]
  simp only [append_toNat, field, extractLsb'_toNat_div]
  omega

/-- Settles O38: as numbers, packing is a sum of the bytes in base 256, and a field or a byte of a word is a digit of it. -/
theorem groupWordLayout : Obligations.GroupWordLayout :=
  ⟨fun b0 b1 b2 b3 b4 => ⟨pack40_eq_append b0 b1 b2 b3 b4, pack40_toNat b0 b1 b2 b3 b4, unpack40_pack40 b0 b1 b2 b3 b4⟩,
    fun w => ⟨(append_fields w).symm, _, _, _, _, _, rfl, pack40_unpack40 w⟩⟩

end Sys2Proof.Machine
end

section
/-! CERTIFICATE. The command map and where a word is fetched: what the host's command write runs, and what a quantum of symbols
runs (R79, R87, R166). -/

namespace Sys2Proof.Machine

/-! ### Command words -/

/-- The four command words (R79). -/
theorem decodeCmd_words : decodeCmd 0b00 = .ok .nop ∧ decodeCmd 0b01 = .ok .enc ∧ decodeCmd 0b10 = .ok .dec ∧
    decodeCmd 0b11 = .error .reservedCommand := by decide

theorem hostAct_writeCmd {w : CmdWord} {i : Instr} (h : decodeCmd w = .ok i) (s : State) :
    hostAct (.writeCmd w) s = exec i s := by
  rw [hostAct, h]

theorem hostAct_writeCmd_reserved {w : CmdWord} {e : DecodeError} (h : decodeCmd w = .error e) (s : State) :
    hostAct (.writeCmd w) s = .refused .reservedCommand := by
  rw [hostAct, h]

/-- Settles O11: the meaning of NOP is the state it is given. -/
theorem nopChangesNothing : Obligations.NopChangesNothing := fun _ => rfl

/-- Settles O4: each word by what it decodes to; NOP by `nopChangesNothing`. -/
theorem commandMap : Obligations.CommandMap := by
  obtain ⟨nop, enc, dec, reserved⟩ := decodeCmd_words
  intro s
  exact ⟨hostAct_writeCmd enc s, hostAct_writeCmd dec s, (hostAct_writeCmd nop s).trans (nopChangesNothing s),
    hostAct_writeCmd_reserved reserved s⟩

/-- Settles O9: the command words, and six units looked up in the rows of the table. -/
theorem someWordsDecode : Obligations.SomeWordsDecode := by
  obtain ⟨nop, enc, dec, reserved⟩ := decodeCmd_words
  exact ⟨nop, enc, dec, reserved, by decide⟩

/-- Settles O5: the host's turn is its next action, and a command write is the command. -/
theorem stepRunsTheCommandWritten : Obligations.StepRunsTheCommandWritten := by
  intro s u w rest i turn script decoded
  have scriptTaken : u.script = .writeCmd w :: rest := by
    obtain ⟨-, -, kept, -⟩ := takeTurn_frame s
    rw [turn] at kept
    exact kept.trans script
  calc step s = hostTurn u := by rw [step_eq, turn]; rfl
    _ = hostAct (.writeCmd w) { u with script := rest } := hostTurn_cons scriptTaken
    _ = exec i { u with script := rest } := hostAct_writeCmd decoded _

/-! ### The unit decoder -/

/-- Settles O36: a unit either decodes, to a symbol with the value the Reverse table gives it, or is foreign to both. -/
theorem unitDecoderIsTheReverseTable : Obligations.UnitDecoderIsTheReverseTable := by
  intro c v
  cases hd : decodeUnit c with
  | ok i =>
    obtain ⟨w, hr, hv⟩ := rev_of_decodeUnit hd
    simp [hr, hv]
  | error e => simp [rev_of_decodeUnit_error hd]

/-! ### Quanta of decoded symbols -/

/-- The loop of DEC.GROUP over units that decode is the execution of the symbols they decode to, and the commit (R166). -/
theorem decLoop_of_decoded {cs : List Byte} {is : List Instr} (h : List.Forall₂ (fun c i => decodeUnit c = .ok i) cs is)
    (s u : State) : ∃ t, execAll is u = .next t ∧ decLoop s cs u = .next (decCommit t) := by
  induction h generalizing u with
  | nil => exact ⟨u, rfl, rfl⟩
  | cons hd _ ih =>
    obtain ⟨v, -, hv⟩ := rev_of_decodeUnit hd
    rw [execAll, decLoop, hd]
    dsimp only
    rw [exec_of_symValue hv]
    exact ih _

/-- DEC.GROUP over units that decode: the execution of their symbols from accumulator 0, and the commit (R155, R166). -/
theorem decTurn_of_decoded {s : State} {cs : List Byte} {is : List Instr} (busy : s.dec.st = .busy)
    (lt : 8 * s.dec.grp < s.dec.len) (ops : decOperands s s.dec.grp = some cs)
    (decoded : List.Forall₂ (fun c i => decodeUnit c = .ok i) cs is) :
    ∃ t, execAll is { s with dec := { s.dec with acc := 0 } } = .next t ∧ decTurn s = .next (decCommit t) := by
  rw [decTurn, if_pos busy, if_pos lt, decGroup, ops]
  exact decLoop_of_decoded decoded s _

/-! ### A word put where the machine fetches -/

/-- The next step after a command is placed is the host's write of it, from the state before the placing. -/
theorem step_placeCommand (w : CmdWord) (s : State) : step (placeCommand w s) = hostAct (.writeCmd w) s := by
  rw [step_of_turns (s := placeCommand w s) rfl]
  exact hostTurn_cons (s := { placeCommand w s with turns := s.turns }) rfl

/-- The quantum DEC reads after a unit is placed is eight times the unit. -/
theorem decOperands_placeUnit (c : Byte) (s : State) :
    decOperands (placeUnit c s) (placeUnit c s).dec.grp = some (List.replicate 8 c) :=
  decOperands_eq_some.2 ⟨List.length_replicate, fun _ hk => Memory.read_writeUnits_inside _ s.dec.inp (by simpa using hk)⟩

/-- The next step after a symbol is placed executes it eight times from accumulator 0, and commits. -/
theorem step_placeUnit {c : Byte} {i : Instr} (h : decodeUnit c = .ok i) (s : State) :
    ∃ t, execAll (List.replicate 8 i) { placeUnit c s with
        turns := s.turns, dec := { (placeUnit c s).dec with acc := 0 } } = .next t ∧
      step (placeUnit c s) = .next (decCommit t) := by
  have decoded : List.Forall₂ (fun c i => decodeUnit c = .ok i) (List.replicate 8 c) (List.replicate 8 i) := by
    simp [List.replicate, h]
  rw [step_of_turns (s := placeUnit c s) rfl]
  refine decTurn_of_decoded (s := { placeUnit c s with turns := s.turns }) rfl ?_ (decOperands_placeUnit c s) decoded
  show 8 * s.dec.grp < 8 * s.dec.grp + 8
  omega

/-- Settles O7: a table word is the byte of its instruction; a command's byte is placed as a command word, a symbol's as a code
unit. -/
theorem fetchWordRunsNext : Obligations.FetchWordRunsNext := by
  intro s nbits w i row
  obtain rfl := eq_encode_of_decodeTableWord row
  rw [State.withFetchWord, placeWord]
  constructor
  · intro command
    obtain ⟨lt, ok⟩ := decodeCmd_of_symValue_none command
    rw [if_pos lt, step_placeCommand, hostAct_writeCmd ok]
  · intro symbol
    obtain ⟨ge, ok⟩ := decodeUnit_of_symValue_some symbol
    rw [if_neg ge, BitVec.ofNat_toNat, BitVec.setWidth_eq]
    exact step_placeUnit ok s

end Sys2Proof.Machine
end

section
/-! SUPPORT. Turns of the host, what the registers and buffers do not depend on, and what a write of consecutive cells leaves
unchanged. -/

namespace Sys2Proof.Machine

/-! ### Turns of the host -/

/-- A turn of the host is its next action; the other turns follow. -/
theorem turnsOf_host_succ {k : Nat} {s t : State} {a : HostAct} {rest : List HostAct} (script : s.script = a :: rest)
    (act : hostAct a { s with script := rest } = .next t) : turnsOf .host (k + 1) s = turnsOf .host k t :=
  turnsOf_succ ((hostTurn_cons script).trans act)

/-- A turn of the host whose action is refused ends the run. -/
theorem turnsOf_host_refused {k : Nat} {s : State} {a : HostAct} {rest : List HostAct} {r : Refusal}
    (script : s.script = a :: rest) (act : hostAct a { s with script := rest } = .refused r) :
    turnsOf .host (k + 1) s = .refused r := by
  rw [turnsOf, agentTurn, hostTurn_cons script, act]

/-! ### The registers and buffers do not depend on the model's own fields -/

section HostFields

variable (s : State) (y : Engine) (l : List HostAct) (ts : List Agent) (k : Nat) (rs : List Reply)

@[simp] theorem st_hostFields :
    ({ s with script := l, turns := ts, tick := k, replies := rs } : State).st y = s.st y := by cases y <;> rfl
@[simp] theorem len_hostFields :
    ({ s with script := l, turns := ts, tick := k, replies := rs } : State).len y = s.len y := by cases y <;> rfl
@[simp] theorem grp_hostFields :
    ({ s with script := l, turns := ts, tick := k, replies := rs } : State).grp y = s.grp y := by cases y <;> rfl
@[simp] theorem olen_hostFields :
    ({ s with script := l, turns := ts, tick := k, replies := rs } : State).olen y = s.olen y := by cases y <;> rfl
@[simp] theorem memRead_hostFields (sp : Space) (i : Nat) :
    memRead sp i { s with script := l, turns := ts, tick := k, replies := rs } = memRead sp i s := by cases sp <;> rfl

end HostFields

/-! ### Writing consecutive cells -/

section MemWriteUnits

variable (sp : Space) (base : Nat) (cs : List Byte) (s : State) (y : Engine)

@[simp] theorem st_memWriteUnits : (memWriteUnits sp base cs s).st y = s.st y := by cases sp <;> cases y <;> rfl
@[simp] theorem len_memWriteUnits : (memWriteUnits sp base cs s).len y = s.len y := by cases sp <;> cases y <;> rfl
@[simp] theorem grp_memWriteUnits : (memWriteUnits sp base cs s).grp y = s.grp y := by cases sp <;> cases y <;> rfl
@[simp] theorem olen_memWriteUnits : (memWriteUnits sp base cs s).olen y = s.olen y := by cases sp <;> cases y <;> rfl
@[simp] theorem encAcc_memWriteUnits : (memWriteUnits sp base cs s).enc.acc = s.enc.acc := by cases sp <;> rfl
@[simp] theorem decAcc_memWriteUnits : (memWriteUnits sp base cs s).dec.acc = s.dec.acc := by cases sp <;> rfl
@[simp] theorem err_memWriteUnits : (memWriteUnits sp base cs s).dec.err = s.dec.err := by cases sp <;> rfl
@[simp] theorem script_memWriteUnits : (memWriteUnits sp base cs s).script = s.script := by cases sp <;> rfl
@[simp] theorem turns_memWriteUnits : (memWriteUnits sp base cs s).turns = s.turns := by cases sp <;> rfl
@[simp] theorem tick_memWriteUnits : (memWriteUnits sp base cs s).tick = s.tick := by cases sp <;> rfl
@[simp] theorem replies_memWriteUnits : (memWriteUnits sp base cs s).replies = s.replies := by cases sp <;> rfl

theorem memRead_memWriteUnits_inside {k : Nat} (h : k < cs.length) :
    memRead sp (base + k) (memWriteUnits sp base cs s) = cs[k]? := by
  rw [memRead_memWriteUnits, if_pos rfl, Memory.read_writeUnits_inside cs _ h]

theorem memRead_memWriteUnits_outside {sp sp' : Space} {j : Nat} (h : sp' ≠ sp ∨ j < base ∨ base + cs.length ≤ j) :
    memRead sp' j (memWriteUnits sp base cs s) = memRead sp' j s := by
  rw [memRead_memWriteUnits]
  split
  · subst sp'
    exact Memory.read_writeUnits_outside cs _ (h.resolve_left (absurd rfl))
  · rfl

theorem memWriteUnits_nil : memWriteUnits sp base [] s = s := by cases sp <;> rfl

theorem memWriteUnits_cons (c : Byte) :
    memWriteUnits sp base (c :: cs) s = memWriteUnits sp (base + 1) cs (memWrite sp base c s) := by cases sp <;> rfl

theorem memWrite_setScript (i : Nat) (v : Byte) (l : List HostAct) :
    memWrite sp i v { s with script := l } = { memWrite sp i v s with script := l } := by cases sp <;> rfl

theorem memWriteUnits_setScript (l : List HostAct) :
    memWriteUnits sp base cs { s with script := l } = { memWriteUnits sp base cs s with script := l } := by cases sp <;> rfl

end MemWriteUnits

end Sys2Proof.Machine
end

section
/-! CERTIFICATE. The host notation `LOAD`, `READ` and `WAIT` (R89), run by the host alone. -/

namespace Sys2Proof.Machine

/-! ### LOAD -/

/-- The writes of a literal, one turn a unit, from the cell `base` on. -/
theorem turnsOf_writeIns (x : Engine) (lit : List Byte) (base : Nat) {s : State} {rest : List HostAct}
    (free : s.st x ≠ .busy) (script : s.script = (lit.zipIdx base).map (fun p => .writeIn x p.2 p.1) ++ rest) :
    turnsOf .host lit.length s = .next (memWriteUnits (inSpace x) base lit { s with script := rest }) := by
  induction lit generalizing base s with
  | nil =>
    obtain rfl : s.script = rest := script
    rw [memWriteUnits_nil]
    rfl
  | cons c lit ih =>
    rw [List.length_cons, turnsOf_host_succ script (hostAct_writeIn (by simpa using free) base c),
      ih (base + 1) (by simpa using free) (by simp), memWriteUnits_cons, ← memWrite_setScript]

/-- LOAD is the literal in the input cells from 0 on, and its length. -/
theorem turnsOf_load {x : Engine} {lit : List Byte} {s : State} {rest : List HostAct} (free : s.st x ≠ .busy)
    (script : s.script = load x lit ++ rest) :
    turnsOf .host (lit.length + 1) s =
      .next ((memWriteUnits (inSpace x) 0 lit { s with script := rest }).setLen x lit.length) := by
  rw [load, List.append_assoc] at script
  calc turnsOf .host (lit.length + 1) s
      = turnsOf .host 1 (memWriteUnits (inSpace x) 0 lit { s with script := .writeLen x lit.length :: rest }) :=
        turnsOf_add (turnsOf_writeIns x lit 0 free script)
    _ = .next ({ memWriteUnits (inSpace x) 0 lit { s with script := .writeLen x lit.length :: rest } with
          script := rest }.setLen x lit.length) :=
        turnsOf_host_succ (script_memWriteUnits ..) (hostAct_writeLen (by simpa using free) _)
    _ = .next ((memWriteUnits (inSpace x) 0 lit { s with script := rest }).setLen x lit.length) := by
        rw [← memWriteUnits_setScript]

/-- Settles O31: the state LOAD ends in, cell by cell, by what a write of consecutive cells and a write of a length leave unchanged. -/
theorem loadWritesTheInput : Obligations.LoadWritesTheInput := by
  intro s x lit rest free script
  refine ⟨_, turnsOf_load free script, ⟨len_setLen_same .., fun i hi => ?_⟩, by simp, fun sp i other => ?_,
    fun y => by simp, fun y hy => ?_, by simp⟩
  · simpa using memRead_memWriteUnits_inside (inSpace x) 0 lit { s with script := rest } hi
  · rw [memRead_setLen, memRead_memWriteUnits_outside (h := by simpa using other), memRead_hostFields]
  · simp [len_setLen_other _ _ hy]

/-! ### WAIT -/

/-- Settles O33: a turn of WAIT is one read of the status, after which it is put back or done. -/
theorem waitPollsTheStatus : Obligations.WaitPollsTheStatus := by
  intro s x rest script
  rw [hostTurn_cons script, hostAct]
  constructor
  · intro busy
    simp [busy, reply, Status.code, ← script]
  · intro free
    simp [free, reply]

/-! ### READ -/

/-- Whatever the host does next and has read before, the read `a` of a port is answered with `r`. -/
def Answers (s : State) (a : HostAct) (r : Reply) : Prop :=
  ∀ l rs, hostAct a { s with script := l, replies := rs } = .next (reply r { s with script := l, replies := rs })

section Answers

variable {s : State} {x : Engine}

theorem answers_readOlen (free : s.st x ≠ .busy) : Answers s (.readOlen x) (.olen x (s.olen x)) := fun l rs => by
  simpa using hostAct_readOlen (s := { s with script := l, replies := rs }) (x := x) (by simpa using free)

theorem answers_readErr (free : s.st .dec ≠ .busy) : Answers s .readErr (.err s.dec.err.code) :=
  fun _ _ => hostAct_readErr free

theorem answers_readOut {i : Nat} {v : Byte} (done : s.st x = .done) (inside : i < s.olen x)
    (cell : memRead (outSpace x) i s = some v) : Answers s (.readOut x i) (.out x i v) := fun _ _ =>
  hostAct_readOut_of_some (by simpa using done) (by simpa using inside) (by simpa using cell)

/-- Reads that are each answered, one turn a read: only the script and the replies change. -/
theorem turnsOf_reads {as : List HostAct} {rs : List Reply} (h : List.Forall₂ (Answers s) as rs) {l : List HostAct}
    {old : List Reply} :
    turnsOf .host as.length { s with script := as ++ l, replies := old } =
      .next { s with script := l, replies := rs.reverse ++ old } := by
  induction h generalizing old with
  | nil => rfl
  | cons answer _ ih =>
    rw [List.length_cons, turnsOf_host_succ rfl (answer _ old), List.reverse_cons, List.append_assoc]
    exact ih

/-- The reads of READ before those of the result: the length and, for DEC, the cause. -/
theorem answers_readHead (free : s.st x ≠ .busy) :
    List.Forall₂ (Answers s) ([.readOlen x] ++ if x = .dec then [.readErr] else [])
      ([.olen x (s.olen x)] ++ if x = .dec then [.err s.dec.err.code] else []) := by
  refine .cons (answers_readOlen free) ?_
  split
  · subst x
    exact .cons (answers_readErr free) .nil
  · exact .nil

/-- The reads of a result are answered with its units in order. -/
theorem answers_readOuts {r : List Byte} (result : ResultIs x r s) :
    List.Forall₂ (Answers s) ((List.range (s.olen x)).map (.readOut x)) (r.zipIdx.map (fun p => Reply.out x p.2 p.1)) := by
  obtain ⟨done, olen, cells⟩ := result
  rw [olen, List.range_eq_range', ← List.zipIdx_map_snd, List.map_map, List.forall₂_map_left_iff, List.forall₂_map_right_iff,
    List.forall₂_same]
  rintro ⟨c, i⟩ mem
  have cell : r[i]? = some c := List.mem_zipIdx_iff_getElem?.1 mem
  have inside : i < r.length := (List.getElem?_eq_some_iff.1 cell).1
  exact answers_readOut done (olen ▸ inside) ((cells i inside).trans cell)

/-- The first turn of READ: the status is answered, and the other reads come next. -/
theorem turnsOf_read_succ {rest : List HostAct} (script : s.script = .read x :: rest) (k : Nat) :
    turnsOf .host (k + 1) s =
      turnsOf .host k { s with script := readRest s x ++ rest, replies := .st x (s.st x).code :: s.replies } :=
  turnsOf_host_succ script (by simp [hostAct, readRest, reply])

/-- READ of an engine that is not BUSY, when the reads of its result (none unless it is DONE) are answered with `outs`. -/
theorem turnsOf_read {rest : List HostAct} {outs : List Reply} (free : s.st x ≠ .busy) (script : s.script = .read x :: rest)
    (h : List.Forall₂ (Answers s) (if s.st x = .done then (List.range (s.olen x)).map (.readOut x) else []) outs) :
    turnsOf .host ((if x = .dec then 3 else 2) + outs.length) s = .next { s with
      script := rest
      replies := outs.reverse ++ (if x = .dec then [.err s.dec.err.code] else []) ++
        [.olen x (s.olen x), .st x (s.st x).code] ++ s.replies } := by
  have answered : List.Forall₂ (Answers s) (readRest s x) _ := List.rel_append (answers_readHead free) h
  have turns : (if x = .dec then 3 else 2) + outs.length = (readRest s x).length + 1 := by
    rw [answered.length_eq]
    cases x <;> simp <;> omega
  rw [turns, turnsOf_read_succ script, turnsOf_reads answered]
  cases x <;> simp

end Answers

theorem hostAct_readOlen_busy {s : State} {x : Engine} (busy : s.st x = .busy) :
    hostAct (.readOlen x) s = .refused .readWhileBusy := if_pos busy

/-- READ of a BUSY engine: the status is answered, and the read of the length is refused (R237). -/
theorem turnsOf_read_busy {s : State} {x : Engine} {rest : List HostAct} (busy : s.st x = .busy)
    (script : s.script = .read x :: rest) :
    turnsOf .host 1 s = .next { s with script := readRest s x ++ rest, replies := .st x 1 :: s.replies } ∧
    turnsOf .host 2 s = .refused .readWhileBusy := by
  constructor
  · rw [turnsOf_read_succ script, busy]
    rfl
  · rw [turnsOf_read_succ script, turnsOf_host_refused rfl (hostAct_readOlen_busy (by simpa using busy))]

/-- Settles O32: of a DONE engine the reads of the result are answered with its units; the other clauses have no such read. -/
theorem readReportsTheOutcome : Obligations.ReadReportsTheOutcome := by
  refine ⟨fun s x r rest result script => ?_, fun s rest error script => ?_, fun s x rest idle script => ?_,
    fun s x rest busy script => turnsOf_read_busy busy script⟩
  · have ⟨done, olen, _⟩ := result
    have answered := turnsOf_read (by simp [done]) script (by simpa only [if_pos done] using answers_readOuts result)
    simpa [done, olen, Status.code] using answered
  · simpa [error, Status.code] using turnsOf_read (outs := []) (x := .dec) (by simp [error]) script (by simp [error])
  · simpa [idle, Status.code] using turnsOf_read (outs := []) (by simp [idle]) script (by simp [idle])

end Sys2Proof.Machine
end

section
/-! CERTIFICATE. The tables (40_tables.md): the Forward table is the double lookup in the Alphabet, and the Reverse table inverts
the Alphabet. -/

namespace Sys2Proof.Machine

/-! ### The Forward table -/

/-- Entry `i * ys.length + j` of the pairs of two lists, the first list outermost, is the pair of the entries `i` and `j`. -/
theorem product_getElem? {α β : Type} (xs : List α) (ys : List β) {i j : Nat} (hi : i < xs.length) (hj : j < ys.length) :
    (xs ×ˢ ys)[i * ys.length + j]? = some (xs[i], ys[j]) := by
  induction xs generalizing i with
  | nil => contradiction
  | cons x xs ih =>
    rw [List.product_cons]
    cases i with
    | zero => simp [List.getElem?_append_left, hj]
    | succ i =>
      have next : (i + 1) * ys.length + j = (ys.map (fun b => (x, b))).length + (i * ys.length + j) := by
        rw [List.length_map, Nat.succ_mul]
        omega
      rw [next, List.getElem?_append_right (Nat.le_add_right _ _), Nat.add_sub_cancel_left]
      exact ih (Nat.lt_of_succ_lt_succ hi)

/-- The two nested loops of R102 list the pairs of two symbols. -/
theorem fwdTable_eq_product : fwdTable = alphabetList ×ˢ alphabetList := rfl

theorem fwdTable_length : fwdTable.length = 1024 := List.length_product alphabetList alphabetList

theorem fwdTable_getElem? (a b : Val5) : fwdTable[a.toNat * 32 + b.toNat]? = some (alphabet a, alphabet b) :=
  product_getElem? alphabetList alphabetList a.isLt b.isLt

/-- The entry of a 10-bit value is what FWDLOOKUP answers (R103, R111): the value is its high 5 bits times 32 plus its low ones. -/
theorem fwdTable_getElem?_eq_fwdLookup (f : Field10) : fwdTable[f.toNat]? = some (fwdLookup f) := by
  have split : f.toNat = (f.extractLsb' 5 5).toNat * 32 + (f.extractLsb' 0 5).toNat := by
    have lt := f.isLt
    simp only [extractLsb'_toNat_div]
    omega
  rw [split]
  exact fwdTable_getElem? _ _

/-- FWDLOOKUP in the terms of R104: `v >> 5` and `v & 31` are the two halves of `v`. -/
theorem fwdLookup_eq_shift_mask (f : Field10) :
    fwdLookup f = (alphabet (f >>> 5 |>.setWidth 5), alphabet (f &&& 31 |>.setWidth 5)) := by
  have high : f.extractLsb' 5 5 = (f >>> 5).setWidth 5 := by
    rw [← BitVec.toNat_inj, extractLsb'_toNat_div, BitVec.toNat_setWidth, BitVec.toNat_ushiftRight, Nat.shiftRight_eq_div_pow]
  have low : f.extractLsb' 0 5 = (f &&& 31).setWidth 5 := by
    have mask : f.toNat &&& 31 = f.toNat % 32 := Nat.and_two_pow_sub_one_eq_mod f.toNat 5
    rw [← BitVec.toNat_inj, extractLsb'_toNat_div, BitVec.toNat_setWidth, BitVec.toNat_and]
    simp [mask]
  rw [fwdLookup, high, low]

/-- Settles O34: the entry at `a * 32 + b` of the pairs of symbols is the pair of `a` and `b`, and FWDLOOKUP splits a value so. -/
theorem forwardTableIsTheDoubleLookup : Obligations.ForwardTableIsTheDoubleLookup := by
  refine ⟨fwdTable_length, fwdTable_getElem?, fun f => ⟨?_, fwdTable_getElem?_eq_fwdLookup f⟩⟩
  rw [fwdTable_getElem?_eq_fwdLookup, fwdLookup_eq_shift_mask]

/-! ### The Reverse table -/

/-- No symbol stands twice in the Alphabet (R100). -/
theorem alphabetList_nodup : alphabetList.Nodup := by decide

/-- The Alphabet is entry by entry the symbols of the 32 values. -/
theorem mem_alphabetList {c : Byte} : c ∈ alphabetList ↔ ∃ v, alphabet v = c := by
  rw [List.mem_iff_getElem]
  exact ⟨fun ⟨i, hi, hc⟩ => ⟨BitVec.ofFin ⟨i, hi⟩, hc⟩, fun ⟨v, hc⟩ => ⟨v.toNat, v.isLt, hc⟩⟩

/-- The Reverse table looks the unit up in the Alphabet (R105). -/
theorem rev_eq_idxOf? (c : Byte) : rev c = (alphabetList.idxOf? c).map (BitVec.ofNat 5) := rfl

/-- A unit is a symbol where it stands in the Alphabet. -/
theorem rev_isSome (c : Byte) : (rev c).isSome ↔ c ∈ alphabetList := by
  rw [rev_eq_idxOf?, Option.isSome_map, List.isSome_idxOf?]

theorem alphabet_of_rev {c : Byte} {v : Val5} (h : rev c = some v) : alphabet v = c := by
  rw [rev_eq_idxOf?, Option.map_eq_some_iff] at h
  obtain ⟨i, found, rfl⟩ := h
  obtain ⟨hi, hc, -⟩ := List.idxOf?_eq_some_iff.mp found
  have hv : (BitVec.ofNat 5 i).toNat = i := Nat.mod_eq_of_lt hi
  simpa only [alphabet, hv] using hc

theorem alphabet_injective : Function.Injective alphabet := fun _ _ h =>
  BitVec.eq_of_toNat_eq (alphabetList_nodup.getElem_inj_iff.mp h)

theorem rev_alphabet (v : Val5) : rev (alphabet v) = some v := by
  obtain ⟨w, hw⟩ := Option.isSome_iff_exists.mp ((rev_isSome _).mpr (mem_alphabetList.mpr ⟨v, rfl⟩))
  rw [hw, alphabet_injective (alphabet_of_rev hw)]

/-- The code units that are symbols are, up to order, the codes of the Alphabet. -/
theorem symbolUnits_perm :
    ((List.range 256).filter (fun n => (rev (BitVec.ofNat 8 n)).isSome)).Perm (alphabetList.map BitVec.toNat) := by
  rw [List.perm_ext_iff_of_nodup (List.nodup_range.filter _)
    (alphabetList_nodup.map (fun _ _ => BitVec.eq_of_toNat_eq))]
  intro n
  rw [List.mem_filter, List.mem_range, rev_isSome, List.mem_map]
  constructor
  · rintro ⟨hn, hmem⟩
    exact ⟨_, hmem, Nat.mod_eq_of_lt hn⟩
  · rintro ⟨c, hmem, rfl⟩
    rw [BitVec.ofNat_toNat, BitVec.setWidth_eq]
    exact ⟨c.isLt, hmem⟩

theorem symbolUnits_length : ((List.range 256).filter (fun n => (rev (BitVec.ofNat 8 n)).isSome)).length = 32 := by
  rw [symbolUnits_perm.length_eq, List.length_map]
  rfl

/-- Settles O35: the Alphabet has no symbol twice, so its lookup inverts it; the other units are what the 32 symbols leave of 256. -/
theorem reverseTableInvertsTheAlphabet : Obligations.ReverseTableInvertsTheAlphabet := by
  refine ⟨rev_alphabet, fun _ _ => alphabet_of_rev,
    fun c d v hc hd => (alphabet_of_rev hc).symm.trans (alphabet_of_rev hd), symbolUnits_length, ?_⟩
  have parts := (List.range 256).length_eq_length_filter_add (fun n => (rev (BitVec.ofNat 8 n)).isSome)
  rw [symbolUnits_length, List.length_range] at parts
  simp only [Option.not_isSome] at parts
  omega

end Sys2Proof.Machine
end

section
/-! SUPPORT. The encoder's groups as a function of the list of bytes: the length, the symbols, the cut at a multiple of five
bytes, and the quantum at an index (R123 to R128, R138). -/

namespace Sys2Proof.Machine

/-! ### One quantum -/

/-- A field of a group word is two of its values, the high one first (R71, R72). -/
theorem fwdLookup_field (w : GroupWord) {j : Nat} (hj : j < 4) :
    fwdLookup (field w j) = (alphabet (valueAt w (2 * j)), alphabet (valueAt w (2 * j + 1))) := by
  have high : (field w j).extractLsb' 5 5 = valueAt w (2 * j) := by
    ext i hi
    simp only [field, valueAt, BitVec.getElem_extractLsb', BitVec.getLsbD_extractLsb']
    grind
  have low : (field w j).extractLsb' 0 5 = valueAt w (2 * j + 1) := by
    ext i hi
    simp only [field, valueAt, BitVec.getElem_extractLsb', BitVec.getLsbD_extractLsb']
    grind
  rw [fwdLookup, high, low]

/-- The quantum of a group word, one Alphabet lookup per value (R138). -/
theorem quantumOf_eq_map (w : GroupWord) : quantumOf w = (List.range 8).map (fun k => alphabet (valueAt w k)) := by
  simp (disch := decide) only [quantumOf, split10, fwdLookup_field]
  rfl

@[simp] theorem encodeGroup_length (b0 b1 b2 b3 b4 : Byte) : (encodeGroup b0 b1 b2 b3 b4).length = 8 := rfl

/-! ### The groups of a list -/

/-- A list that has no first group has fewer than five bytes. -/
theorem length_lt_of_noGroup {p : List Byte}
    (noGroup : ∀ b0 b1 b2 b3 b4 rest, p = b0 :: b1 :: b2 :: b3 :: b4 :: rest → False) : p.length < 5 := by
  match p with
  | [] | [_] | [_, _] | [_, _, _] | [_, _, _, _] => simp
  | _ :: _ :: _ :: _ :: _ :: _ => exact (noGroup _ _ _ _ _ _ rfl).elim

theorem encodeGroups_length (p : List Byte) : (encodeGroups p).length = 8 * (p.length / 5) := by
  induction p using encodeGroups.induct with
  | case1 b0 b1 b2 b3 b4 rest ih =>
    rw [encodeGroups, List.length_append, ih, encodeGroup_length]
    simp only [List.length_cons]
    omega
  | case2 p noGroup =>
    have short := length_lt_of_noGroup noGroup
    rw [encodeGroups.eq_2 p noGroup, List.length_nil]
    omega

theorem encodeBytes_length (b : List Byte) : (encodeBytes b).length = 8 * ((b.length + 4) / 5) := by
  rw [encodeBytes, encodeGroups_length, pad5_length, Nat.mul_div_cancel_left _ (by decide)]

/-- A list cut at a multiple of five bytes is encoded piece by piece (R240). -/
theorem encodeGroups_append {p : List Byte} (whole : p.length % 5 = 0) (q : List Byte) :
    encodeGroups (p ++ q) = encodeGroups p ++ encodeGroups q := by
  induction p using encodeGroups.induct with
  | case1 b0 b1 b2 b3 b4 rest ih =>
    simp only [List.length_cons] at whole
    simp only [List.cons_append, encodeGroups, ih (by omega), List.append_assoc]
  | case2 p noGroup =>
    have short := length_lt_of_noGroup noGroup
    obtain rfl : p = [] := List.eq_nil_of_length_eq_zero (by omega)
    rfl

/-- The five bytes of group `g` are encoded in the eight cells of quantum `g` (R123, R127). -/
theorem encodeGroups_getElem? {p : List Byte} {g : Nat} {b0 b1 b2 b3 b4 : Byte}
    (group : ∀ k, k < 5 → p[5 * g + k]? = [b0, b1, b2, b3, b4][k]?) {k : Nat} (hk : k < 8) :
    (encodeGroups p)[8 * g + k]? = (encodeGroup b0 b1 b2 b3 b4)[k]? := by
  have inside : 5 * g + 4 < p.length := (List.getElem?_eq_some_iff.1 (group 4 (by decide))).1
  have before : (p.take (5 * g)).length = 5 * g := List.length_take_of_le (by omega)
  have quanta : (encodeGroups (p.take (5 * g))).length = 8 * g := by rw [encodeGroups_length, before]; omega
  have first : (p.drop (5 * g)).take 5 = [b0, b1, b2, b3, b4] := by
    refine List.ext_getElem? fun k => ?_
    rcases Nat.lt_or_ge k 5 with lt | ge
    · rw [List.getElem?_take_of_lt lt, List.getElem?_drop, group k lt]
    · rw [List.getElem?_take_eq_none ge, List.getElem?_eq_none ge]
  have cut : p = p.take (5 * g) ++ ([b0, b1, b2, b3, b4] ++ (p.drop (5 * g)).drop 5) := by
    rw [← first, List.take_append_drop, List.take_append_drop]
  rw [cut, encodeGroups_append (by omega), List.getElem?_append_right (by omega), quanta, Nat.add_sub_cancel_left]
  exact List.getElem?_append_left (l₁ := encodeGroup b0 b1 b2 b3 b4) hk

end Sys2Proof.Machine
end

section
/-! CERTIFICATE. The function view of the encoder (41_encoder.md): the output length, the symbols, the decoder's acceptance, and
what an encoding forgets (R128, R130, R138 to R140). -/

namespace Sys2Proof.Machine

/-! ### One value at a time -/

/-- Settles O39: the quantum of the group word, value by value. -/
theorem encodeGroupSymbolAtATime : Obligations.EncodeGroupSymbolAtATime := fun _ _ _ _ _ => quantumOf_eq_map _

/-- The value `V_k` as a number: digit `7 - k` of the word in base 32 (R72). -/
theorem valueAt_toNat (w : GroupWord) (k : Nat) : (valueAt w k).toNat = w.toNat / 2 ^ (35 - 5 * k) % 2 ^ 5 :=
  extractLsb'_toNat_div w _ 5

/-! ### Trailing zero bits -/

/-- When the last `z` bits of a word are zero, so are the bits of a value that are among them. -/
theorem valueAt_and_mask_eq_zero {w : GroupWord} {z k m : Nat} (zeros : 2 ^ z ∣ w.toNat) (among : 35 - 5 * k + m ≤ z) :
    valueAt w k &&& BitVec.ofNat 5 (2 ^ m - 1) = 0 := by
  obtain ⟨c, hc⟩ := zeros
  ext i hi
  have bit : (valueAt w k)[i] = (2 ^ z * c).testBit (35 - 5 * k + i) := by
    rw [valueAt, BitVec.getElem_extractLsb', BitVec.getLsbD, hc]
  have mask : (BitVec.ofNat 5 (2 ^ m - 1))[i] = decide (i < m) := by
    rw [← BitVec.getLsbD_eq_getElem hi, BitVec.getLsbD_ofNat, Nat.testBit_two_pow_sub_one, decide_eq_true hi, Bool.true_and]
  rw [BitVec.getElem_and, bit, mask, Nat.testBit_two_pow_mul]
  by_cases lt : i < m
  · simp [show ¬ z ≤ 35 - 5 * k + i by omega]
  · simp [lt]

/-- When the last `z` bits of a word are zero, the symbols made of them only are the symbol of 0. -/
theorem drop_quantumOf_of_zeros {w : GroupWord} {z k : Nat} (zeros : 2 ^ z ∣ w.toNat) (among : 40 ≤ 5 * k + z) :
    (quantumOf w).drop k = List.replicate (8 - k) (alphabet 0) := by
  rw [quantumOf_eq_map, ← List.map_drop, List.eq_replicate_iff]
  refine ⟨by simp, fun c mem => ?_⟩
  obtain ⟨j, later, rfl⟩ := List.mem_map.1 mem
  rw [List.range_eq_range', List.drop_range', List.mem_range'_1] at later
  have zero := valueAt_and_mask_eq_zero (k := j) (m := 5) zeros (by omega)
  rw [show BitVec.ofNat 5 (2 ^ 5 - 1) = BitVec.allOnes 5 from rfl, BitVec.and_allOnes] at zero
  rw [zero]

/-- Settles O41: 1 to 4 real bytes leave the last 32, 24, 16 or 8 bits of the group word zero. -/
theorem paddedGroupForcesItsLastSymbols : Obligations.PaddedGroupForcesItsLastSymbols := by
  intro b0 b1 b2 b3
  have pad : (0 : Byte).toNat = 0 := rfl
  have zeros1 : 2 ^ 32 ∣ (pack40 b0 0 0 0 0).toNat := by rw [pack40_toNat, pad]; omega
  have zeros2 : 2 ^ 24 ∣ (pack40 b0 b1 0 0 0).toNat := by rw [pack40_toNat, pad]; omega
  have zeros3 : 2 ^ 16 ∣ (pack40 b0 b1 b2 0 0).toNat := by rw [pack40_toNat, pad]; omega
  have zeros4 : 2 ^ 8 ∣ (pack40 b0 b1 b2 b3 0).toNat := by rw [pack40_toNat, pad]; omega
  exact ⟨⟨drop_quantumOf_of_zeros zeros1 (by decide), valueAt_and_mask_eq_zero (m := 2) zeros1 (by decide)⟩,
    ⟨drop_quantumOf_of_zeros zeros2 (by decide), valueAt_and_mask_eq_zero (m := 4) zeros2 (by decide)⟩,
    ⟨drop_quantumOf_of_zeros zeros3 (by decide), valueAt_and_mask_eq_zero (m := 1) zeros3 (by decide)⟩,
    ⟨drop_quantumOf_of_zeros zeros4 (by decide), valueAt_and_mask_eq_zero (m := 3) zeros4 (by decide)⟩⟩

/-! ### Encodings decode -/

/-- Folding the first `k` values of a word gives its first `5k` bits (R155). -/
theorem foldl_valueAt_eq_shiftRight (w : GroupWord) {k : Nat} (hk : k ≤ 8) :
    ((List.range k).map (valueAt w)).foldl foldStep 0 = w >>> (40 - 5 * k) := by
  induction k with
  | zero => simp [BitVec.ushiftRight_eq_zero]
  | succ k ih =>
    have split : 40 - 5 * k = 35 - 5 * k + 5 := by omega
    have lt := (w >>> (35 - 5 * k)).isLt
    rw [List.range_succ, List.map_append, List.foldl_append, ih (by omega), show 40 - 5 * (k + 1) = 35 - 5 * k by omega]
    simp only [List.map_cons, List.map_nil, List.foldl_cons, List.foldl_nil]
    rw [← BitVec.toNat_inj, foldStep_toNat, valueAt_toNat]
    simp only [BitVec.toNat_ushiftRight, Nat.shiftRight_eq_div_pow] at lt ⊢
    rw [split, pow_add, ← Nat.div_div_eq_div_mul]
    omega

/-- FOLD40 of the eight values of a word is the word. -/
theorem fold40_values (w : GroupWord) : fold40 ((List.range 8).map (valueAt w)) = w := by
  rw [fold40, foldl_valueAt_eq_shiftRight w le_rfl]
  exact BitVec.ushiftRight_zero w

/-- The symbols of a quantum have the values of its group word. -/
theorem mapM_rev_quantumOf (w : GroupWord) : (quantumOf w).mapM rev = some ((List.range 8).map (valueAt w)) := by
  have symbols : ∀ vs : List Val5, (vs.map alphabet).mapM rev = some vs := by
    intro vs
    induction vs with
    | nil => rfl
    | cons v vs ih => rw [List.map_cons, List.mapM_cons, rev_alphabet, ih]; rfl
  rw [quantumOf_eq_map, ← symbols, List.map_map]
  rfl

/-- DECGROUP takes back the five bytes ENCGROUP was given. -/
theorem decodeGroup_encodeGroup (b0 b1 b2 b3 b4 : Byte) :
    decodeGroup (encodeGroup b0 b1 b2 b3 b4) = .ok [b0, b1, b2, b3, b4] := by
  rw [decodeGroup, encodeGroup, mapM_rev_quantumOf]
  exact congrArg Except.ok ((congrArg unpack40 (fold40_values _)).trans (unpack40_pack40 b0 b1 b2 b3 b4))

/-- The first quantum of a text that decodes, and the rest of it. -/
theorem decodeGroups_append {q text x y : List Byte} (quantum : q.length = 8) (first : decodeGroup q = .ok x)
    (rest : decodeGroups text = .ok y) : decodeGroups (q ++ text) = .ok (x ++ y) := by
  match q, quantum with
  | [_, _, _, _, _, _, _, _], _ =>
    simp only [List.cons_append, List.nil_append, decodeGroups, first, rest]

/-- Whole groups decode to themselves. -/
theorem decodeGroups_encodeGroups {p : List Byte} (whole : p.length % 5 = 0) : decodeGroups (encodeGroups p) = .ok p := by
  induction p using encodeGroups.induct with
  | case1 b0 b1 b2 b3 b4 rest ih =>
    simp only [List.length_cons] at whole
    rw [encodeGroups, decodeGroups_append rfl (decodeGroup_encodeGroup b0 b1 b2 b3 b4) (ih (by omega))]
    rfl
  | case2 p noGroup =>
    have short := length_lt_of_noGroup noGroup
    obtain rfl : p = [] := List.eq_nil_of_length_eq_zero (by omega)
    rfl

/-- Decoding an encoding gives the padded input (R172). -/
theorem decodeText_encodeBytes (b : List Byte) : decodeText (encodeBytes b) = .ok (pad5 b) := by
  have quanta := encodeBytes_length b
  have groups := pad5_length b
  rw [decodeText, if_neg (by omega), encodeBytes, decodeGroups_encodeGroups (by omega)]

/-! ### The statements -/

/-- Settles O42: eight symbols for each group of the padded input. -/
theorem encodeLength : Obligations.EncodeLength := encodeBytes_length

/-- Every unit of the groups' quanta is a symbol. -/
theorem mem_encodeGroups {p : List Byte} {c : Byte} (mem : c ∈ encodeGroups p) : ∃ v, c = alphabet v := by
  induction p using encodeGroups.induct with
  | case1 b0 b1 b2 b3 b4 rest ih =>
    rw [encodeGroups, List.mem_append, encodeGroup, quantumOf_eq_map, List.mem_map] at mem
    rcases mem with ⟨k, -, rfl⟩ | later
    · exact ⟨_, rfl⟩
    · exact ih later
  | case2 p noGroup => simp [encodeGroups.eq_2 p noGroup] at mem

/-- Settles O43: the units are symbols group by group, and the decoder gives the padded input. -/
theorem encodeProducesOnlySymbols : Obligations.EncodeProducesOnlySymbols :=
  fun b => ⟨fun _ mem => mem_encodeGroups mem, pad5 b, decodeText_encodeBytes b⟩

/-- Settles O48: an encoding is made of the padded input, and decodes to it. -/
theorem encodingForgetsExactlyThePadding : Obligations.EncodingForgetsExactlyThePadding := by
  intro b b'
  constructor
  · intro same
    have decoded := decodeText_encodeBytes b
    rw [same, decodeText_encodeBytes b'] at decoded
    exact (Except.ok.inj decoded).symm
  · exact congrArg encodeGroups

end Sys2Proof.Machine
end

section
/-! SUPPORT. What a run in which the host leaves an engine alone does to that engine: nothing but the engine's own turns (R137,
R170). -/

namespace Sys2Proof.Machine

/-- The agent that takes the turns of an engine (R20). -/
def agentOf : Engine → Agent
  | .enc => .enc
  | .dec => .dec

/-- The registers and buffers of one engine are the same in two states. -/
def SameEngine (s t : State) : Engine → Prop
  | .enc => t.enc = s.enc
  | .dec => t.dec = s.dec

/-! ### One action of the host -/

theorem hostAct_sameEngine {x : Engine} {a : HostAct} {s t : State} (alone : HostAct.leavesAlone x a = true)
    (h : hostAct a s = .next t) : SameEngine s t x := by
  obtain ⟨onEnc, onDec⟩ := hostAct_on h
  cases x with
  | enc =>
    show t.enc = s.enc
    generalize t.enc = e at onEnc
    cases onEnc with
    | keep => rfl
    | reset | start | writeLen | writeIn => cases alone
  | dec =>
    show t.dec = s.dec
    generalize t.dec = d at onDec
    cases onDec with
    | keep => rfl
    | reset | start | startBadLength | writeLen | writeIn => cases alone

theorem exec_turns_script {i : Instr} {s t : State} (h : exec i s = .next t) : t.turns = s.turns ∧ t.script = s.script := by
  rcases exec_cases h with ⟨-, rfl⟩ | ⟨-, -, rfl⟩ | ⟨-, -, -, rfl⟩ | ⟨-, -, -, rfl⟩ | ⟨v, -, rfl⟩ <;> exact ⟨rfl, rfl⟩

/-- The order of turns is no port of the block: no action of the host writes it (R33). -/
theorem hostAct_turns {a : HostAct} {s t : State} (h : hostAct a s = .next t) : t.turns = s.turns := by
  rcases hostAct_cases h with ⟨-, rfl⟩ | ⟨w, i, -, -, hx⟩ | ⟨x, n, -, -, rfl⟩ | ⟨x, i, v, -, -, rfl⟩ | own
  · rfl
  · exact (exec_turns_script hx).1
  · exact turns_setLen ..
  · exact turns_memWrite ..
  · rcases own with ⟨_, -, rfl⟩ | ⟨_, -, rfl | rfl⟩ | ⟨_, _, -, -, rfl⟩ | ⟨_, rfl⟩ <;> rfl

/-- READ is made of reads. -/
theorem leavesAlone_readRest (x y : Engine) (s : State) : ∀ a ∈ readRest s y, HostAct.leavesAlone x a = true := by
  rw [readRest, List.forall_mem_append, List.forall_mem_append, List.forall_mem_singleton]
  refine ⟨⟨rfl, ?_⟩, ?_⟩ <;> split
  · exact List.forall_mem_singleton.2 rfl
  · exact List.forall_mem_nil _
  · exact List.forall_mem_map.2 fun _ _ => rfl
  · exact List.forall_mem_nil _

/-- A literal submitted to DEC is loaded and started there, and nowhere else (R196). -/
theorem leavesAlone_operate_dec (lit : List Byte) : ∀ a ∈ operate .dec lit, HostAct.leavesAlone .enc a = true := by
  rw [operate, load, start, List.forall_mem_append, List.forall_mem_append, List.forall_mem_append, List.forall_mem_map,
    List.forall_mem_singleton, List.forall_mem_singleton, List.forall_mem_cons, List.forall_mem_singleton]
  exact ⟨⟨⟨fun _ _ => rfl, rfl⟩, rfl⟩, rfl, rfl⟩

/-- What an action that leaves an engine alone puts on the script leaves it alone too. -/
theorem hostAct_leftAlone {x : Engine} {a : HostAct} {s t : State} (act : HostAct.leavesAlone x a = true) (rest : LeftAlone x s)
    (h : hostAct a s = .next t) : LeftAlone x t := by
  rcases hostAct_cases h with ⟨-, rfl⟩ | ⟨w, i, -, -, hx⟩ | ⟨x, n, -, -, rfl⟩ | ⟨x, i, v, -, -, rfl⟩ | own
  · exact rest
  · rwa [LeftAlone, (exec_turns_script hx).2]
  · rwa [LeftAlone, script_setLen]
  · rwa [LeftAlone, script_memWrite]
  · rcases own with ⟨y, -, rfl⟩ | ⟨_, rfl, rfl | rfl⟩ | ⟨_, us, rfl, -, rfl⟩ | ⟨_, rfl⟩
    · exact List.forall_mem_append.2 ⟨leavesAlone_readRest x y s, rest⟩
    · exact rest
    · exact List.forall_mem_cons.2 ⟨act, rest⟩
    · cases x with
      | enc => exact List.forall_mem_append.2 ⟨leavesAlone_operate_dec us, rest⟩
      | dec => cases act
    · exact rest

/-! ### Runs -/

/-- A step of a run in which the host leaves an engine alone: it takes the next turn of the list, the host still leaves the engine
alone, and the engine has its own turn or stays as it is. -/
theorem step_of_leftAlone {x : Engine} {s t : State} {a : Agent} {rest : List Agent} (turns : s.turns = a :: rest)
    (alone : LeftAlone x s) (h : step s = .next t) : t.turns = rest ∧ LeftAlone x t ∧
      (a = agentOf x ∧ agentTurn a { s with turns := rest } = .next t ∨ a ≠ agentOf x ∧ SameEngine s t x) := by
  rw [step_of_turns turns] at h
  cases a with
  | host =>
    have other : Agent.host ≠ agentOf x := by cases x <;> nofun
    rcases hostTurn_cases h with ⟨-, rfl⟩ | ⟨a, acts, script, act⟩
    · exact ⟨rfl, alone, .inr ⟨other, by cases x <;> rfl⟩⟩
    · have script : s.script = a :: acts := script
      rw [LeftAlone, script, List.forall_mem_cons] at alone
      obtain ⟨first, others⟩ := alone
      have kept := hostAct_sameEngine first act
      exact ⟨hostAct_turns act, hostAct_leftAlone first others act, .inr ⟨other, by cases x <;> exact kept⟩⟩
  | enc =>
    obtain ⟨-, -, dec, script, turns, -⟩ := encTurn_frame h
    refine ⟨turns, by rwa [LeftAlone, script], ?_⟩
    cases x with
    | enc => exact .inl ⟨rfl, h⟩
    | dec => exact .inr ⟨nofun, dec⟩
  | dec =>
    obtain ⟨-, -, enc, script, turns, -⟩ := decTurn_frame h
    refine ⟨turns, by rwa [LeftAlone, script], ?_⟩
    cases x with
    | enc => exact .inr ⟨nofun, enc⟩
    | dec => exact .inl ⟨rfl, h⟩

/-- A run in which the host leaves an engine alone counts the engine's turns: what holds of its registers after `m` turns of its
own, whatever else happens meanwhile, holds after the run with the turns the run gives it. -/
theorem steps_of_leftAlone {x : Engine} {P : Nat → State → Prop}
    (own : ∀ {m s t}, P m s → agentTurn (agentOf x) s = .next t → P (m + 1) t)
    (same : ∀ {m s t}, P m s → SameEngine s t x → P m t) {k m : Nat} {s t : State} (start : P m s) (alone : LeftAlone x s)
    (enough : k ≤ s.turns.length) (run : steps k s = .next t) : P (m + (s.turns.take k).count (agentOf x)) t := by
  induction k generalizing m s with
  | zero =>
    cases run
    simpa using start
  | succ k ih =>
    obtain ⟨a, rest, turns⟩ := List.exists_cons_of_length_pos (Nat.zero_lt_of_lt enough)
    cases hs : step s with
    | fault | refused => simp [steps, hs] at run
    | next u =>
      rw [steps_succ hs] at run
      obtain ⟨turnsLeft, alone', effect⟩ := step_of_leftAlone turns alone hs
      have enough' : k ≤ u.turns.length := by simpa [turns, turnsLeft] using enough
      rw [turns, List.take_succ_cons, ← turnsLeft]
      rcases effect with ⟨rfl, turn⟩ | ⟨other, kept⟩
      · have started : P m { s with turns := rest } := same start (by cases x <;> rfl)
        rw [List.count_cons_self, Nat.add_comm (List.count ..), ← Nat.add_assoc]
        exact ih (own started turn) alone' enough' run
      · rw [List.count_cons_of_ne other]
        exact ih (same start kept) alone' enough' run

end Sys2Proof.Machine
end

section
/-! CERTIFICATE. The steps of ENC (41_encoder.md): START, GROUP and FINISH, each with the whole of what it changes. -/

namespace Sys2Proof.Machine

/-! ### START and FINISH -/

theorem exec_enc_of_busy {s : State} (busy : s.enc.st = .busy) : exec .enc s = .refused .startWhileBusy := if_pos busy

theorem exec_enc_of_not_busy {s : State} (free : s.enc.st ≠ .busy) :
    exec .enc s = .next { s with enc := { s.enc with grp := 0, olen := 0, st := .busy } } := if_neg free

/-- Settles O12: the two answers of START; with no byte to encode every group is encoded at once. -/
theorem encStartsTheEncoder : Obligations.EncStartsTheEncoder := by
  intro s
  refine ⟨fun free => ⟨exec_enc_of_not_busy free, fun empty => ?_⟩, exec_enc_of_busy⟩
  exact encTurn_of_all_encoded rfl empty.le

/-- Settles O17: the answer of ENC's turn when all is encoded; the invariant bounds `ENC.GRP` from above. -/
theorem encFinishPublishesTheLength : Obligations.EncFinishPublishesTheLength := by
  intro s busy all
  refine ⟨encTurn_of_all_encoded busy all, fun good => ?_⟩
  have bound := good.enc.busyGrp busy
  omega

/-! ### The operands of GROUP -/

/-- The five operand bytes are the five padded reads, in order. -/
theorem encOperands_eq_some {s : State} {g : Nat} {b0 b1 b2 b3 b4 : Byte} :
    encOperands s g = some (b0, b1, b2, b3, b4) ↔ ∀ k, k < 5 → inb s (5 * g + k) = [b0, b1, b2, b3, b4][k]? := by
  constructor
  · intro h
    obtain ⟨r0, r1, r2, r3, r4⟩ := encOperands_eq h
    intro k hk
    interval_cases k
    exacts [r0, r1, r2, r3, r4]
  · intro h
    have r0 : inb s (5 * g) = some b0 := h 0 (by decide)
    have r1 : inb s (5 * g + 1) = some b1 := h 1 (by decide)
    have r2 : inb s (5 * g + 2) = some b2 := h 2 (by decide)
    have r3 : inb s (5 * g + 3) = some b3 := h 3 (by decide)
    have r4 : inb s (5 * g + 4) = some b4 := h 4 (by decide)
    rw [encOperands, r0, r1, r2, r3, r4]

/-- Five reads that are answered are five operands. -/
theorem exists_encOperands {s : State} {g : Nat} (read : ∀ k, k < 5 → (inb s (5 * g + k)).isSome = true) :
    ∃ b0 b1 b2 b3 b4, encOperands s g = some (b0, b1, b2, b3, b4) := by
  refine ⟨(inb s (5 * g)).get (read 0 (by decide)), (inb s (5 * g + 1)).get (read 1 (by decide)),
    (inb s (5 * g + 2)).get (read 2 (by decide)), (inb s (5 * g + 3)).get (read 3 (by decide)),
    (inb s (5 * g + 4)).get (read 4 (by decide)), encOperands_eq_some.2 fun k hk => ?_⟩
  interval_cases k <;> exact (Option.some_get _).symm

/-- A read at or beyond `ENC.LEN` is answered; one before it is when the cell holds a value (R134). -/
theorem inb_isSome {s : State} {i : Nat} (cell : i < s.enc.len → (memRead .encIn i s).isSome = true) :
    (inb s i).isSome = true := by
  rw [inb]
  split
  · exact cell ‹_›
  · rfl

/-- Settles O16: the answer of ENC's turn on the padded reads, and what the write of eight consecutive cells does. -/
theorem encGroupEncodesOneGroup : Obligations.EncGroupEncodesOneGroup := by
  intro s busy lt cells
  obtain ⟨b0, b1, b2, b3, b4, ops⟩ := exists_encOperands fun k hk => inb_isSome (cells (5 * s.enc.grp + k) (by omega) (by omega))
  refine ⟨b0, b1, b2, b3, b4, _, encOperands_eq_some.1 ops, encTurn_of_operands busy lt ops, rfl, rfl, fun k hk => ?_,
    fun i outside => ?_, rfl, rfl, rfl, rfl, rfl, rfl, rfl, rfl, rfl⟩
  · exact Memory.read_writeUnits_inside _ s.enc.out hk
  · exact Memory.read_writeUnits_outside _ s.enc.out outside

end Sys2Proof.Machine
end

section
/-! CERTIFICATE. The step view of the encoder computes the function view (R137, R245). -/

namespace Sys2Proof.Machine

/-- ENC over the input `b` with `m` groups encoded, the next one or FINISH to come. -/
structure EncRunning (b : List Byte) (m : Nat) (e : EncRegs) : Prop where
  busy : e.st = .busy
  grp  : e.grp = m
  len  : e.len = b.length
  inp  : ∀ i, i < b.length → e.inp.read i = b[i]?
  out  : ∀ i, i < 8 * m → e.out.read i = (encodeBytes b)[i]?

/-- `ResultIs` of ENC and `Encode(b)`, of the registers alone. -/
structure EncDone (b : List Byte) (e : EncRegs) : Prop where
  done : e.st = .done
  olen : e.olen = (encodeBytes b).length
  out  : ∀ i, i < (encodeBytes b).length → e.out.read i = (encodeBytes b)[i]?

/-- ENC after `m` turns of its own since START over the input `b`. -/
def EncAfter (b : List Byte) (m : Nat) (e : EncRegs) : Prop :=
  (m ≤ (b.length + 4) / 5 → EncRunning b m e) ∧ ((b.length + 4) / 5 < m → EncDone b e)

theorem EncDone.resultIs {b : List Byte} {s : State} (h : EncDone b s.enc) : ResultIs .enc (encodeBytes b) s :=
  ⟨h.done, h.olen, h.out⟩

section

variable {b : List Byte} {m : Nat} {s : State}

/-- A padded read is a unit of the padded input (R122, R134). -/
theorem EncRunning.inb_eq (h : EncRunning b m s.enc) {i : Nat} (hi : i < 5 * ((b.length + 4) / 5)) :
    inb s i = (pad5 b)[i]? := by
  rw [inb, pad5_getElem? b i hi, h.len]
  split
  · exact h.inp i ‹_›
  · rfl

/-- GROUP: one more quantum of `Encode(b)` is in `ENC.OUT` (R135). -/
theorem EncRunning.group (h : EncRunning b m s.enc) (more : m < (b.length + 4) / 5) :
    ∃ t, encTurn s = .next t ∧ EncRunning b (m + 1) t.enc := by
  have padded : ∀ k, k < 5 → inb s (5 * m + k) = (pad5 b)[5 * m + k]? := fun k hk => h.inb_eq (by omega)
  have read : ∀ k, k < 5 → (inb s (5 * m + k)).isSome = true := fun k hk => by
    have inside : 5 * m + k < (pad5 b).length := by rw [pad5_length]; omega
    rw [padded k hk, List.getElem?_eq_getElem inside, Option.isSome_some]
  obtain ⟨b0, b1, b2, b3, b4, ops⟩ := exists_encOperands read
  have group : ∀ k, k < 5 → (pad5 b)[5 * m + k]? = [b0, b1, b2, b3, b4][k]? := fun k hk =>
    (padded k hk).symm.trans (encOperands_eq_some.1 ops k hk)
  have turn := encTurn_of_operands h.busy (by rw [h.grp, h.len]; omega) (h.grp.symm ▸ ops)
  refine ⟨_, turn, { h with grp := congrArg (· + 1) h.grp, out := fun i hi => ?_ }⟩
  rw [h.grp]
  rcases Nat.lt_or_ge i (8 * m) with before | written
  · rw [Memory.read_writeUnits_outside _ _ (.inl before)]
    exact h.out i before
  · obtain ⟨k, rfl⟩ := Nat.exists_eq_add_of_le written
    have hk : k < 8 := by omega
    exact (Memory.read_writeUnits_inside _ s.enc.out hk).trans (encodeGroups_getElem? group hk).symm

/-- FINISH: the whole of `Encode(b)` is in `ENC.OUT` and its length in `ENC.OLEN` (R136). -/
theorem EncRunning.finish (h : EncRunning b ((b.length + 4) / 5) s.enc) : ∃ t, encTurn s = .next t ∧ EncDone b t.enc := by
  refine ⟨encFinish s, encTurn_of_all_encoded h.busy (by rw [h.grp, h.len]; omega), rfl, ?_, fun i hi => ?_⟩
  · rw [encFinish_enc, h.grp, encodeBytes_length]
  · exact h.out i (encodeBytes_length b ▸ hi)

/-- One more turn of ENC: GROUP while a group is left, then FINISH once, then nothing (R132, R222). -/
theorem EncAfter.turn (h : EncAfter b m s.enc) : ∃ t, encTurn s = .next t ∧ EncAfter b (m + 1) t.enc := by
  obtain ⟨running, done⟩ := h
  rcases Nat.lt_trichotomy m ((b.length + 4) / 5) with lt | rfl | gt
  · obtain ⟨t, turn, next⟩ := (running lt.le).group lt
    exact ⟨t, turn, fun _ => next, fun _ => by omega⟩
  · obtain ⟨t, turn, next⟩ := (running le_rfl).finish
    exact ⟨t, turn, fun _ => by omega, fun _ => next⟩
  · exact ⟨s, encTurn_of_not_busy (by simp [(done gt).done]), fun _ => by omega, fun _ => done gt⟩

theorem EncAfter.of_encTurn {t : State} (h : EncAfter b m s.enc) (turn : encTurn s = .next t) : EncAfter b (m + 1) t.enc := by
  obtain ⟨u, turn', next⟩ := h.turn
  cases turn.symm.trans turn'
  exact next

/-- ENC alone takes its turns without being refused. -/
theorem EncAfter.turns (h : EncAfter b 0 s.enc) (m : Nat) : ∃ t, turnsOf .enc m s = .next t ∧ EncAfter b m t.enc := by
  induction m with
  | zero => exact ⟨s, rfl, h⟩
  | succ m ih =>
    obtain ⟨t, run, after⟩ := ih
    obtain ⟨u, turn, next⟩ := after.turn
    exact ⟨u, (turnsOf_add run).trans (turnsOf_succ (k := 0) turn), next⟩

/-- After START over an input, no turn has been taken (R133, R137). -/
theorem encAfter_start {s0 : State} (input : InputIs .enc b s0) (start : exec .enc s0 = .next s) : EncAfter b 0 s.enc := by
  obtain ⟨len, inp⟩ := input
  by_cases busy : s0.enc.st = .busy
  · rw [exec_enc_of_busy busy] at start
    cases start
  · rw [exec_enc_of_not_busy busy] at start
    cases start
    exact ⟨fun _ => ⟨rfl, rfl, len, inp, nofun⟩, nofun⟩

end

/-- Settles O53: what ENC holds after `m` turns of its own, of ENC alone and of every run that leaves it alone. -/
theorem encoderStepsComputeEncode : Obligations.EncoderStepsComputeEncode := by
  intro b s0 s input start
  have started := encAfter_start input start
  refine ⟨fun m le => ?_, ?_, fun k t alone enough run => ?_⟩
  · obtain ⟨u, turns, running, -⟩ := started.turns m
    exact ⟨u, turns, (running le).busy, (running le).grp⟩
  · obtain ⟨u, turns, -, done⟩ := started.turns ((b.length + 4) / 5 + 1)
    exact ⟨u, turns, (done (Nat.lt_succ_self _)).resultIs⟩
  · have ⟨running, done⟩ := steps_of_leftAlone (x := .enc) (P := fun m s => EncAfter b m s.enc) EncAfter.of_encTurn
      (fun after same => same.symm ▸ after) started alone enough run
    rw [Nat.zero_add] at running done
    exact ⟨fun le => ⟨(running le).busy, (running le).grp⟩, fun lt => (done lt).resultIs⟩

end Sys2Proof.Machine
end

section
/-! SUPPORT. The decoder's quanta as functions of the list of units: the fold of eight values, the symbols of a quantum, and a
text quantum by quantum (42_decoder.md R153 to R163, R174). -/

namespace Sys2Proof.Machine

/-! ### Units and values -/

theorem mapM_rev_map_alphabet (vs : List Val5) : (vs.map alphabet).mapM rev = some vs := by
  induction vs with
  | nil => rfl
  | cons v vs ih => rw [List.map_cons, List.mapM_cons, rev_alphabet, ih]; rfl

/-- One foreign unit is enough to leave a list of units without values (R156). -/
theorem mapM_rev_of_foreign {cs : List Byte} (foreign : ∃ c ∈ cs, rev c = none) : cs.mapM rev = none := by
  induction cs with
  | nil => simp at foreign
  | cons c cs ih =>
    rw [List.mapM_cons]
    cases hc : rev c with
    | none => rfl
    | some v =>
      have later : ∃ d ∈ cs, rev d = none := by simpa [hc] using foreign
      rw [ih later]
      rfl

/-- Units none of which is foreign are the symbols of some values. -/
theorem exists_eq_map_alphabet {cs : List Byte} (symbols : ∀ c ∈ cs, rev c ≠ none) :
    ∃ vs : List Val5, cs = vs.map alphabet := by
  have range : cs ∈ {l | ∀ c ∈ l, c ∈ Set.range alphabet} := fun c mem =>
    mem_alphabetList.1 ((rev_isSome c).1 (Option.isSome_iff_ne_none.2 (symbols c mem)))
  rw [← Set.range_list_map] at range
  obtain ⟨vs, h⟩ := range
  exact ⟨vs, h.symm⟩

/-! ### The fold -/

/-- Eight folds of five bits shift out whatever the accumulator held (R155). -/
theorem foldl_foldStep_eq_append (a : GroupWord) (v0 v1 v2 v3 v4 v5 v6 v7 : Val5) :
    [v0, v1, v2, v3, v4, v5, v6, v7].foldl foldStep a = v0 ++ v1 ++ v2 ++ v3 ++ v4 ++ v5 ++ v6 ++ v7 := by
  rw [← BitVec.toNat_inj]
  simp only [List.foldl_cons, List.foldl_nil, foldStep_toNat, append_toNat]
  omega

/-- The values of a folded word are the ones folded, in order (R72, R155). -/
theorem values_fold40 {vs : List Val5} (eight : vs.length = 8) : (List.range 8).map (valueAt (fold40 vs)) = vs := by
  match vs, eight with
  | [v0, v1, v2, v3, v4, v5, v6, v7], _ =>
    rw [fold40, foldl_foldStep_eq_append]
    simp only [List.range, List.range.loop, List.map_cons, List.map_nil, List.cons.injEq, ← BitVec.toNat_inj, valueAt_toNat,
      append_toNat, and_true]
    omega

/-! ### One quantum -/

/-- Eight symbols are the encoding of a group: of the bytes of their folded word (R174). -/
theorem exists_encodeGroup {q : List Byte} (quantum : q.length = 8) (symbols : ∀ c ∈ q, rev c ≠ none) :
    ∃ b0 b1 b2 b3 b4, encodeGroup b0 b1 b2 b3 b4 = q := by
  obtain ⟨vs, rfl⟩ := exists_eq_map_alphabet symbols
  refine ⟨_, _, _, _, _, (congrArg quantumOf (pack40_unpack40 (fold40 vs))).trans ?_⟩
  rw [quantumOf_eq_map, ← Function.comp_def, ← List.map_map, values_fold40 (by simpa using quantum)]

theorem decodeGroup_of_foreign {q : List Byte} (foreign : ∃ c ∈ q, rev c = none) : decodeGroup q = .error .digit := by
  rw [decodeGroup, mapM_rev_of_foreign foreign]

/-! ### A text -/

/-- A first quantum that fails ends the decode, whatever comes after it (R156, R157). -/
theorem decodeGroups_append_of_first_error {q : List Byte} {e : Cause} (quantum : q.length = 8)
    (first : decodeGroup q = .error e) (text : List Byte) : decodeGroups (q ++ text) = .error e := by
  match q, quantum with
  | [_, _, _, _, _, _, _, _], _ => simp only [List.cons_append, List.nil_append, decodeGroups, first]

/-- A failure after a good first quantum is the failure of the whole text: no byte is given out (R157). -/
theorem decodeGroups_append_of_rest_error {q text x : List Byte} {e : Cause} (quantum : q.length = 8)
    (first : decodeGroup q = .ok x) (rest : decodeGroups text = .error e) : decodeGroups (q ++ text) = .error e := by
  match q, quantum with
  | [_, _, _, _, _, _, _, _], _ => simp only [List.cons_append, List.nil_append, decodeGroups, first, rest]

/-- Induction over a text of whole quanta (R153). -/
theorem quanta_induction {motive : (s : List Byte) → s.length % 8 = 0 → Prop} (nil : motive [] rfl)
    (append : ∀ q text (_ : q.length = 8) (rest : text.length % 8 = 0) (whole : (q ++ text).length % 8 = 0),
      motive text rest → motive (q ++ text) whole) (s : List Byte) (whole : s.length % 8 = 0) : motive s whole := by
  obtain ⟨n, hn⟩ := Nat.dvd_of_mod_eq_zero whole
  induction n generalizing s with
  | zero =>
    obtain rfl := List.eq_nil_of_length_eq_zero hn
    exact nil
  | succ n ih =>
    obtain ⟨q, text, rfl, quantum⟩ : ∃ q text, s = q ++ text ∧ q.length = 8 :=
      ⟨s.take 8, s.drop 8, (List.take_append_drop 8 s).symm, List.length_take_of_le (by omega)⟩
    rw [List.length_append] at hn
    have rest : text.length % 8 = 0 := by omega
    exact append q text quantum rest whole (ih text rest (by omega))

/-- Whole quanta of symbols are the encoding of whole groups (R174). -/
theorem exists_encodeGroups {s : List Byte} (whole : s.length % 8 = 0) (symbols : ∀ c ∈ s, rev c ≠ none) :
    ∃ p, p.length % 5 = 0 ∧ encodeGroups p = s := by
  induction s, whole using quanta_induction with
  | nil => exact ⟨[], rfl, rfl⟩
  | append q text quantum _ _ ih =>
    obtain ⟨first, later⟩ := List.forall_mem_append.1 symbols
    obtain ⟨b0, b1, b2, b3, b4, rfl⟩ := exists_encodeGroup quantum first
    obtain ⟨p, groups, rfl⟩ := ih later
    exact ⟨b0 :: b1 :: b2 :: b3 :: b4 :: p, by simp only [List.length_cons]; omega, rfl⟩

/-- A foreign unit anywhere in whole quanta fails the decode with DIGIT (R156). -/
theorem decodeGroups_of_foreign {s : List Byte} (whole : s.length % 8 = 0) (foreign : ∃ c ∈ s, rev c = none) :
    decodeGroups s = .error .digit := by
  induction s, whole using quanta_induction with
  | nil => simp at foreign
  | append q text quantum _ _ ih =>
    by_cases first : ∃ c ∈ q, rev c = none
    · exact decodeGroups_append_of_first_error quantum (decodeGroup_of_foreign first) text
    · have symbols : ∀ c ∈ q, rev c ≠ none := fun c mem reverse => first ⟨c, mem, reverse⟩
      have later : ∃ c ∈ text, rev c = none := by
        obtain ⟨c, mem, reverse⟩ := foreign
        exact ⟨c, (List.mem_append.1 mem).resolve_left (fun h => symbols c h reverse), reverse⟩
      obtain ⟨b0, b1, b2, b3, b4, rfl⟩ := exists_encodeGroup quantum symbols
      exact decodeGroups_append_of_rest_error quantum (decodeGroup_encodeGroup b0 b1 b2 b3 b4) (ih later)

/-! ### The decoder -/

theorem decodeText_of_bad_length {s : List Byte} (bad : s.length % 8 ≠ 0) : decodeText s = .error .length := if_pos bad

theorem decodeText_of_whole {s : List Byte} (whole : s.length % 8 = 0) : decodeText s = decodeGroups s :=
  if_neg (fun bad => bad whole)

/-- The three outcomes of the decoder: a bad length, a foreign unit in whole quanta, or the encoding of whole groups, which
decodes to those groups (R152, R158). -/
theorem decodeText_cases (s : List Byte) :
    (s.length % 8 ≠ 0 ∧ decodeText s = .error .length) ∨
    (s.length % 8 = 0 ∧ (∃ c ∈ s, rev c = none) ∧ decodeText s = .error .digit) ∨
    (∃ p, p.length % 5 = 0 ∧ encodeGroups p = s ∧ decodeText s = .ok p) := by
  by_cases whole : s.length % 8 = 0
  case neg => exact .inl ⟨whole, decodeText_of_bad_length whole⟩
  by_cases foreign : ∃ c ∈ s, rev c = none
  · exact .inr (.inl ⟨whole, foreign, (decodeText_of_whole whole).trans (decodeGroups_of_foreign whole foreign)⟩)
  · obtain ⟨p, groups, rfl⟩ := exists_encodeGroups whole fun c mem reverse => foreign ⟨c, mem, reverse⟩
    exact .inr (.inr ⟨p, groups, rfl, (decodeText_of_whole whole).trans (decodeGroups_encodeGroups groups)⟩)

/-- A text that decodes is the encoding of the whole groups it decodes to (R173). -/
theorem encodeGroups_of_decodeText {s x : List Byte} (h : decodeText s = .ok x) : x.length % 5 = 0 ∧ encodeGroups x = s := by
  rcases decodeText_cases s with ⟨-, fails⟩ | ⟨-, -, fails⟩ | ⟨p, groups, text, decodes⟩
  · cases h.symm.trans fails
  · cases h.symm.trans fails
  · cases h.symm.trans decodes
    exact ⟨groups, text⟩

theorem bad_length_of_decodeText {s : List Byte} (h : decodeText s = .error .length) : s.length % 8 ≠ 0 := by
  rcases decodeText_cases s with ⟨bad, -⟩ | ⟨-, -, fails⟩ | ⟨p, -, -, decodes⟩
  · exact bad
  · cases h.symm.trans fails
  · cases h.symm.trans decodes

/-- A text that fails with DIGIT has a good length: the length is tested first (R158). -/
theorem whole_of_decodeText_digit {s : List Byte} (h : decodeText s = .error .digit) : s.length % 8 = 0 := by
  rcases decodeText_cases s with ⟨-, fails⟩ | ⟨whole, -⟩ | ⟨p, -, -, decodes⟩
  · cases h.symm.trans fails
  · exact whole
  · cases h.symm.trans decodes

end Sys2Proof.Machine
end

section
/-! CERTIFICATE. The function view of the decoder (42_decoder.md): the fold, the correspondence of groups and quanta, the three
outcomes, and the round trips (R152 to R158, R171 to R174). -/

namespace Sys2Proof.Machine

/-- Whole groups need no padding (R122). -/
theorem pad5_of_whole {b : List Byte} (whole : b.length % 5 = 0) : pad5 b = b := by
  rw [pad5, whole, List.replicate_zero, List.append_nil]

/-- Settles O46: the encoding is made of whole groups, and each quantum decodes to its group. -/
theorem roundTripGivesThePaddedInput : Obligations.RoundTripGivesThePaddedInput := decodeText_encodeBytes

/-- Settles O47: a text that decodes is the encoding of whole groups, to which padding adds nothing. -/
theorem decodableTextsAreCanonical : Obligations.DecodableTextsAreCanonical := by
  intro s x decodes
  obtain ⟨groups, text⟩ := encodeGroups_of_decodeText decodes
  rw [encodeBytes, pad5_of_whole groups, text]

/-- Settles O45: whole groups are their own padded input. -/
theorem roundTripOnWholeGroups : Obligations.RoundTripOnWholeGroups := by
  intro b whole
  rw [decodeText_encodeBytes, pad5_of_whole whole]

/-- Settles O37: what the accumulator held before is shifted out. -/
theorem foldPlacesEachValue : Obligations.FoldPlacesEachValue := fun a v0 v1 v2 v3 v4 v5 v6 v7 =>
  ⟨foldl_foldStep_eq_append a v0 v1 v2 v3 v4 v5 v6 v7, foldl_foldStep_eq_append 0 v0 v1 v2 v3 v4 v5 v6 v7⟩

/-- Settles O40: a quantum of symbols is the encoding of a group, and DECGROUP undoes ENCGROUP. -/
theorem groupsAndQuantaCorrespond : Obligations.GroupsAndQuantaCorrespond := by
  refine ⟨fun b0 b1 b2 b3 b4 => ⟨encodeGroup_length .., fun c mem => ?_, decodeGroup_encodeGroup ..⟩,
    fun cs quantum symbols => ?_, fun cs => decodeGroup_of_foreign⟩
  · rw [encodeGroup, quantumOf_eq_map, List.mem_map] at mem
    obtain ⟨k, -, rfl⟩ := mem
    rw [rev_alphabet, Option.isSome_some]
  · obtain ⟨b0, b1, b2, b3, b4, rfl⟩ := exists_encodeGroup quantum fun c mem => Option.isSome_iff_ne_none.1 (symbols c mem)
    exact ⟨b0, b1, b2, b3, b4, decodeGroup_encodeGroup .., rfl⟩

/-- Settles O44: the length test, then the foreign units; what is left is the encoding of whole groups. -/
theorem decodeOutcomes : Obligations.DecodeOutcomes := by
  intro s
  refine ⟨decodeText_of_bad_length, fun whole foreign => ?_, fun whole symbols => ?_⟩
  · exact (decodeText_of_whole whole).trans (decodeGroups_of_foreign whole foreign)
  · obtain ⟨p, groups, rfl⟩ := exists_encodeGroups whole symbols
    refine ⟨p, (decodeText_of_whole whole).trans (decodeGroups_encodeGroups groups), ?_⟩
    rw [encodeGroups_length]
    omega

end Sys2Proof.Machine
end

section
/-! CERTIFICATE. The steps of DEC (42_decoder.md): START, GROUP and FINISH, each with the whole of what it changes, and the symbols
that GROUP executes (R154, R155, R164 to R168). -/

namespace Sys2Proof.Machine

/-! ### START and FINISH -/

section

variable {s : State}

theorem exec_dec_of_busy (busy : s.dec.st = .busy) : exec .dec s = .refused .startWhileBusy := if_pos busy

theorem exec_dec_of_bad_length (free : s.dec.st ≠ .busy) (bad : s.dec.len % 8 ≠ 0) :
    exec .dec s = .next { s with dec := { s.dec with grp := 0, olen := 0, err := .malformed .length, st := .error } } :=
  (if_neg free).trans (if_pos bad)

theorem exec_dec_of_whole (free : s.dec.st ≠ .busy) (whole : s.dec.len % 8 = 0) :
    exec .dec s = .next { s with dec := { s.dec with grp := 0, olen := 0, err := .none, st := .busy } } :=
  (if_neg free).trans (if_neg fun bad => bad whole)

end

/-- Settles O13: the three answers of START; with no unit to decode every quantum is decoded at once, and in ERROR there is no
turn to take. -/
theorem decStartsTheDecoder : Obligations.DecStartsTheDecoder := by
  intro s
  refine ⟨fun free whole => ⟨exec_dec_of_whole free whole, fun empty => ?_⟩,
    fun free bad => ⟨exec_dec_of_bad_length free bad, decTurn_of_not_busy nofun⟩, exec_dec_of_busy⟩
  exact decTurn_of_all_decoded rfl empty.le

/-- Settles O20: the answer of DEC's turn when all is decoded; the invariant bounds `DEC.GRP` from above. -/
theorem decFinishPublishesTheLength : Obligations.DecFinishPublishesTheLength := by
  intro s busy all
  refine ⟨decTurn_of_all_decoded busy all, fun good => ?_⟩
  obtain ⟨-, bound⟩ := good.dec.busyLen busy
  exact Nat.le_antisymm bound all

/-! ### GROUP -/

/-- Settles O18: the answer of DEC's turn on eight units, symbols or not, and what the write of five consecutive cells does. -/
theorem decGroupDecodesOneQuantum : Obligations.DecGroupDecodesOneQuantum := by
  intro s busy lt
  refine ⟨fun good => ?_, fun v0 v1 v2 v3 v4 v5 v6 v7 cells => ?_, fun k c hk cell foreign written => ?_⟩
  · obtain ⟨whole, -⟩ := good.dec.busyLen busy
    omega
  · have ops : decOperands s s.dec.grp = some ([v0, v1, v2, v3, v4, v5, v6, v7].map alphabet) := by
      refine decOperands_eq_some.2 ⟨rfl, fun k hk => ?_⟩
      obtain ⟨c, cell, value⟩ := cells k hk
      rw [List.getElem?_eq_getElem hk] at value
      rw [cell, List.getElem?_map, List.getElem?_eq_getElem hk, Option.map_some, alphabet_of_rev value]
    refine ⟨_, decTurn_of_symbols busy lt ops (mapM_rev_map_alphabet _), rfl, rfl, fun k hk => ?_, fun i outside => ?_,
      rfl, rfl, rfl, rfl, rfl, rfl, rfl, rfl, rfl, rfl⟩
    · exact Memory.read_writeUnits_inside _ s.dec.out hk
    · exact Memory.read_writeUnits_outside _ s.dec.out outside
  · obtain ⟨cs, ops⟩ := decOperands_isSome written
    obtain ⟨-, units⟩ := decOperands_eq_some.1 ops
    exact decTurn_of_foreign busy lt ops ⟨c, List.mem_of_getElem? ((units k hk).symm.trans cell), foreign⟩

theorem hostAct_readOut_of_no_result {s : State} {x : Engine} {i : Nat} (noResult : ¬ (s.st x = .done ∧ i < s.olen x)) :
    hostAct (.readOut x i) s = .refused .resultNotThere := if_neg noResult

/-- Settles O19: of what DEC's turn can do only a failing GROUP enters ERROR, where DEC has no turn to take and no result. -/
theorem failedDecodeLeavesNoResult : Obligations.FailedDecodeLeavesNoResult := by
  intro s t busy turn error
  rcases decTurn_cases turn with ⟨free, -⟩ | ⟨-, -, rfl⟩ | ⟨-, -, cs, vs, -, -, rfl⟩ | ⟨-, -, -, rfl⟩
  · exact absurd busy free
  · cases error
  · cases error.symm.trans busy
  · refine ⟨rfl, rfl, rfl, decTurn_of_not_busy nofun, fun i => hostAct_readOut_of_no_result ?_⟩
    rintro ⟨done, -⟩
    cases done

/-! ### The symbols GROUP executes -/

/-- Settles O15: a symbol's byte is a code unit, which decodes to it, and to the value the Reverse table gives the unit. -/
theorem symbolsFoldTheirValue : Obligations.SymbolsFoldTheirValue := by
  intro i notNop notEnc notDec
  have symbol : i.symValue ≠ none := by
    cases i
    case nop | enc | dec => contradiction
    all_goals nofun
  obtain ⟨-, unit⟩ := decodeUnit_of_symValue_some symbol
  obtain ⟨v, reverse, value⟩ := rev_of_decodeUnit unit
  exact ⟨v, alphabet_of_rev reverse, exec_of_symValue value⟩

/-- Settles O6: the units of the quantum are the words of the symbols they decode to. -/
theorem stepRunsTheSymbolsOfAQuantum : Obligations.StepRunsTheSymbolsOfAQuantum := by
  intro s u is turn busy lt eight cells
  have dec : u.dec = s.dec := by
    obtain ⟨-, kept, -⟩ := takeTurn_frame s
    rwa [turn] at kept
  have ops : decOperands u u.dec.grp = some (is.map encode) := by
    refine decOperands_eq_some.2 ⟨by rw [List.length_map, eight], fun k hk => ?_⟩
    obtain ⟨c, i, cell, symbol, decodes⟩ := cells k hk
    rw [memRead_decIn, dec, ← memRead_decIn, cell, List.getElem?_map, symbol, Option.map_some, encode_of_decodeUnit decodes]
  have decoded : List.Forall₂ (fun c i => decodeUnit c = .ok i) (is.map encode) is := by
    rw [List.forall₂_map_left_iff, List.forall₂_same]
    intro i mem
    obtain ⟨k, hk, rfl⟩ := List.getElem_of_mem mem
    obtain ⟨c, i, -, symbol, decodes⟩ := cells k (eight ▸ hk)
    rw [List.getElem?_eq_getElem hk, Option.some_inj] at symbol
    rw [symbol, encode_of_decodeUnit decodes, decodes]
  rw [step_eq, turn]
  exact decTurn_of_decoded (dec ▸ busy) (dec ▸ lt) ops decoded

end Sys2Proof.Machine
end

section
/-! CERTIFICATE. The step view of the decoder computes the function view, in its three outcomes (R170, R202, R245). -/

namespace Sys2Proof.Machine

/-- DEC over the text `b`, whose first quanta encode the groups `p`, with `m` of them decoded. -/
structure DecRunning (b p : List Byte) (m : Nat) (d : DecRegs) : Prop where
  busy  : d.st = .busy
  noErr : d.err = .none
  grp   : d.grp = m
  len   : d.len = b.length
  inp   : ∀ i, i < b.length → d.inp.read i = b[i]?
  out   : ∀ i, i < 5 * m → d.out.read i = p[i]?

/-- `ResultIs` of DEC and `x`, with no error, of the registers alone. -/
def DecDone (x : List Byte) (d : DecRegs) : Prop :=
  (d.st = .done ∧ d.olen = x.length ∧ ∀ i, i < x.length → d.out.read i = x[i]?) ∧ d.err = .none

/-- DEC after a GROUP that met a foreign unit (R167). -/
def DecFailed (d : DecRegs) : Prop := d.st = .error ∧ d.err = .malformed .digit ∧ d.olen = 0

/-- DEC after `m` turns of its own since START: one for each of the groups `p`, then one that ends the operation as `End` says. -/
def DecAfter (b p : List Byte) (End : DecRegs → Prop) (m : Nat) (d : DecRegs) : Prop :=
  (m ≤ p.length / 5 → DecRunning b p m d) ∧ (p.length / 5 < m → End d)

/-- How an operation ends: the text begins with the quanta of the groups `p`, the turn after them answers and leads to `End`, and
DEC is then not BUSY. -/
structure DecEnding (b p : List Byte) (End : DecRegs → Prop) : Prop where
  quanta : encodeGroups p <+: b
  last   : ∀ {s : State}, DecRunning b p (p.length / 5) s.dec → ∃ t, decTurn s = .next t ∧ End t.dec
  idle   : ∀ {d}, End d → d.st ≠ .busy

/-- Of DEC alone and of every run of the machine that leaves it alone: DEC is BUSY for `n` turns of its own and has ended as `End`
says after one more. -/
def DecTakes (n : Nat) (End : DecRegs → Prop) (s : State) : Prop :=
  (∀ m, m ≤ n → ∃ u, turnsOf .dec m s = .next u ∧ u.dec.st = .busy ∧ u.dec.grp = m) ∧
  (∃ u, turnsOf .dec (n + 1) s = .next u ∧ End u.dec) ∧
  (∀ k t, LeftAlone .dec s → k ≤ s.turns.length → steps k s = .next t →
    let m := (s.turns.take k).count .dec
    (m ≤ n → t.dec.st = .busy ∧ t.dec.grp = m) ∧ (n < m → End t.dec))

/-! ### The turns of DEC -/

section

variable {b p : List Byte} {m : Nat} {s : State} {End : DecRegs → Prop}

/-- The five bytes of a group that is there. -/
theorem exists_group {g : Nat} (inside : g < p.length / 5) :
    ∃ b0 b1 b2 b3 b4, ∀ k, k < 5 → p[5 * g + k]? = [b0, b1, b2, b3, b4][k]? := by
  refine ⟨p[5 * g], p[5 * g + 1], p[5 * g + 2], p[5 * g + 3], p[5 * g + 4], fun k hk => ?_⟩
  interval_cases k <;> exact List.getElem?_eq_getElem _

/-- The operands of the next GROUP are the next eight units of the text (R153). -/
theorem DecRunning.decOperands_eq (h : DecRunning b p m s.dec) {cs : List Byte} (eight : cs.length = 8)
    (units : ∀ k, k < 8 → b[8 * m + k]? = cs[k]?) : decOperands s s.dec.grp = some cs := by
  refine decOperands_eq_some.2 ⟨eight, fun k hk => ?_⟩
  have unit : b[8 * m + k]? = some cs[k] := (units k hk).trans (List.getElem?_eq_getElem _)
  have inside : 8 * m + k < b.length := (List.getElem?_eq_some_iff.1 unit).1
  rw [h.grp, memRead_decIn, h.inp _ inside, units k hk]

/-- GROUP: one more group is in `DEC.OUT` (R166). -/
theorem DecRunning.group (h : DecRunning b p m s.dec) (quanta : encodeGroups p <+: b) (more : m < p.length / 5) :
    ∃ t, decTurn s = .next t ∧ DecRunning b p (m + 1) t.dec := by
  have whole : (encodeGroups p).length = 8 * (p.length / 5) := encodeGroups_length p
  have fits := quanta.length_le
  obtain ⟨b0, b1, b2, b3, b4, group⟩ := exists_group more
  have units : ∀ k, k < 8 → b[8 * m + k]? = (encodeGroup b0 b1 b2 b3 b4)[k]? := fun k hk => by
    have inside : 8 * m + k < (encodeGroups p).length := by omega
    rw [List.prefix_iff_getElem?.1 quanta _ inside, ← List.getElem?_eq_getElem, encodeGroups_getElem? group hk]
  have notAll : 8 * s.dec.grp < s.dec.len := by rw [h.grp, h.len]; omega
  have turn := decTurn_of_symbols h.busy notAll (h.decOperands_eq rfl units) (mapM_rev_quantumOf _)
  rw [fold40_values, unpack40_pack40] at turn
  refine ⟨_, turn, { h with grp := congrArg (· + 1) h.grp, out := fun i hi => ?_ }⟩
  rw [h.grp]
  rcases Nat.lt_or_ge i (5 * m) with before | written
  · rw [Memory.read_writeUnits_outside _ _ (.inl before)]
    exact h.out i before
  · obtain ⟨k, rfl⟩ := Nat.exists_eq_add_of_le written
    have hk : k < 5 := by omega
    exact (Memory.read_writeUnits_inside _ s.dec.out hk).trans (group k hk).symm

/-- One more turn of DEC: GROUP while a group is left, then the turn that ends the operation, then nothing (R164, R222). -/
theorem DecAfter.turn (ending : DecEnding b p End) (h : DecAfter b p End m s.dec) :
    ∃ t, decTurn s = .next t ∧ DecAfter b p End (m + 1) t.dec := by
  obtain ⟨running, ended⟩ := h
  rcases Nat.lt_trichotomy m (p.length / 5) with lt | rfl | gt
  · obtain ⟨t, turn, next⟩ := (running lt.le).group ending.quanta lt
    exact ⟨t, turn, fun _ => next, fun _ => by omega⟩
  · obtain ⟨t, turn, next⟩ := ending.last (running le_rfl)
    exact ⟨t, turn, fun _ => by omega, fun _ => next⟩
  · exact ⟨s, decTurn_of_not_busy (ending.idle (ended gt)), fun _ => by omega, fun _ => ended gt⟩

theorem DecAfter.of_decTurn {t : State} (ending : DecEnding b p End) (h : DecAfter b p End m s.dec)
    (turn : decTurn s = .next t) : DecAfter b p End (m + 1) t.dec := by
  obtain ⟨u, turn', next⟩ := h.turn ending
  cases turn.symm.trans turn'
  exact next

/-- DEC alone takes its turns without being refused. -/
theorem DecAfter.turns (ending : DecEnding b p End) (h : DecAfter b p End 0 s.dec) (m : Nat) :
    ∃ t, turnsOf .dec m s = .next t ∧ DecAfter b p End m t.dec := by
  induction m with
  | zero => exact ⟨s, rfl, h⟩
  | succ m ih =>
    obtain ⟨t, run, after⟩ := ih
    obtain ⟨u, turn, next⟩ := after.turn ending
    exact ⟨u, (turnsOf_add run).trans (turnsOf_succ (k := 0) turn), next⟩

/-- After START over an input of whole quanta, no turn has been taken (R165, R170). -/
theorem decAfter_start {s0 : State} (whole : b.length % 8 = 0) (input : InputIs .dec b s0) (start : exec .dec s0 = .next s) :
    DecAfter b p End 0 s.dec := by
  obtain ⟨(len : s0.dec.len = b.length), inp⟩ := input
  by_cases busy : s0.dec.st = .busy
  · rw [exec_dec_of_busy busy] at start
    cases start
  · rw [exec_dec_of_whole busy (len.symm ▸ whole)] at start
    cases start
    exact ⟨fun _ => ⟨rfl, rfl, rfl, len, inp, nofun⟩, nofun⟩

/-- What DEC holds after `m` turns of its own, of DEC alone and of every run that leaves it alone. -/
theorem DecEnding.decTakes (ending : DecEnding b p End) (started : DecAfter b p End 0 s.dec) :
    DecTakes (p.length / 5) End s := by
  refine ⟨fun m le => ?_, ?_, fun k t alone enough run => ?_⟩
  · obtain ⟨u, turns, running, -⟩ := started.turns ending m
    exact ⟨u, turns, (running le).busy, (running le).grp⟩
  · obtain ⟨u, turns, -, ended⟩ := started.turns ending (p.length / 5 + 1)
    exact ⟨u, turns, ended (Nat.lt_succ_self _)⟩
  · have ⟨running, ended⟩ := steps_of_leftAlone (x := .dec) (P := fun m s => DecAfter b p End m s.dec)
      (DecAfter.of_decTurn ending) (fun after same => same.symm ▸ after) started alone enough run
    rw [Nat.zero_add] at running ended
    exact ⟨fun le => ⟨(running le).busy, (running le).grp⟩, ended⟩

end

/-! ### The three ends -/

/-- FINISH: when the quanta are the whole text, the groups are in `DEC.OUT` and their length in `DEC.OLEN` (R168). -/
theorem decEnding_done {p : List Byte} (groups : p.length % 5 = 0) : DecEnding (encodeGroups p) p (DecDone p) where
  quanta := List.prefix_rfl
  last {s} running := by
    have all : s.dec.len ≤ 8 * s.dec.grp := by rw [running.len, running.grp, encodeGroups_length]
    have length : 5 * (p.length / 5) = p.length := by omega
    refine ⟨decFinish s, decTurn_of_all_decoded running.busy all, ⟨rfl, ?_, fun i hi => ?_⟩, running.noErr⟩
    · rw [decFinish_dec, running.grp, length]
    · exact running.out i (by omega)
  idle := by
    rintro d ⟨⟨done, -⟩, -⟩
    simp [done]

/-- A failing GROUP: a unit of the quantum after the groups is foreign (R167). -/
theorem decEnding_failed {b p : List Byte} {c : Byte} {k : Nat} (quanta : encodeGroups p <+: b)
    (inside : 8 * (p.length / 5) + 8 ≤ b.length) (hk : k < 8) (unit : b[8 * (p.length / 5) + k]? = some c)
    (foreign : rev c = none) : DecEnding b p DecFailed where
  quanta := quanta
  last {s} running := by
    obtain ⟨q, eight, units⟩ : ∃ q : List Byte, q.length = 8 ∧ ∀ j, j < 8 → b[8 * (p.length / 5) + j]? = q[j]? := by
      refine ⟨(b.drop (8 * (p.length / 5))).take 8, List.length_take_of_le (by rw [List.length_drop]; omega), fun j hj => ?_⟩
      rw [List.getElem?_take_of_lt hj, List.getElem?_drop]
    have mem : c ∈ q := List.mem_of_getElem? ((units k hk).symm.trans unit)
    have more : 8 * s.dec.grp < s.dec.len := by rw [running.len, running.grp]; omega
    exact ⟨_, decTurn_of_foreign running.busy more (running.decOperands_eq eight units) ⟨c, mem, foreign⟩, rfl, rfl, rfl⟩
  idle := by
    rintro d ⟨error, -⟩
    simp [error]

/-- A bad length ends the operation in START: DEC has nothing to do in its turns (R158, R165). -/
theorem dec_start_of_bad_length {b : List Byte} {s0 s : State} (bad : b.length % 8 ≠ 0) (input : InputIs .dec b s0)
    (start : exec .dec s0 = .next s) : s.dec.st = .error ∧ s.dec.err = .malformed .length ∧ s.dec.olen = 0 := by
  obtain ⟨(len : s0.dec.len = b.length), -⟩ := input
  by_cases busy : s0.dec.st = .busy
  · rw [exec_dec_of_busy busy] at start
    cases start
  · rw [exec_dec_of_bad_length busy (len.symm ▸ bad)] at start
    cases start
    exact ⟨rfl, rfl, rfl⟩

/-- A DEC that is not BUSY stays as it is in every run that leaves it alone (R222). -/
theorem steps_of_dec_not_busy {s t : State} {k : Nat} (free : s.dec.st ≠ .busy) (alone : LeftAlone .dec s)
    (enough : k ≤ s.turns.length) (run : steps k s = .next t) : t.dec = s.dec := by
  refine steps_of_leftAlone (x := .dec) (m := 0) (P := fun _ u => u.dec = s.dec) (fun {_ u v} kept turn => ?_)
    (fun kept same => same.trans kept) rfl alone enough run
  cases (decTurn_of_not_busy (s := u) (kept ▸ free)).symm.trans turn
  exact kept

/-- The quanta before that of the first foreign unit are the encoding of as many groups. -/
theorem exists_groups_before {b : List Byte} {i : Nat} (inside : i < b.length)
    (before : ∀ j d, j < i → b[j]? = some d → rev d ≠ none) : ∃ p, p.length / 5 = i / 8 ∧ encodeGroups p <+: b := by
  have length : (b.take (8 * (i / 8))).length = 8 * (i / 8) := List.length_take_of_le (by omega)
  have symbols : ∀ d ∈ b.take (8 * (i / 8)), rev d ≠ none := fun d mem => by
    obtain ⟨j, hj, unit⟩ := List.mem_take_iff_getElem.1 mem
    exact before j d (by omega) (List.getElem?_eq_some_iff.2 ⟨by omega, unit⟩)
  obtain ⟨p, -, text⟩ := exists_encodeGroups (by omega) symbols
  have quanta := encodeGroups_length p
  rw [text, length] at quanta
  exact ⟨p, by omega, text ▸ List.take_prefix _ b⟩

/-- Settles O54: a decodable text is the encoding of its groups, which DEC decodes one a turn; so it does with the groups before
the first foreign unit, and a bad length leaves it no turn. -/
theorem decoderStepsComputeDecode : Obligations.DecoderStepsComputeDecode := by
  intro b s0 s input start
  refine ⟨fun x decodes => ?_, fun fails => ?_, fun i c fails unit foreign before => ?_⟩
  · obtain ⟨groups, rfl⟩ := encodeGroups_of_decodeText decodes
    have length := encodeGroups_length x
    have turns : (encodeGroups x).length / 8 = x.length / 5 := by omega
    rw [turns]
    exact (decEnding_done groups).decTakes (decAfter_start (by omega) input start)
  · obtain ⟨error, cause, olen⟩ := dec_start_of_bad_length (bad_length_of_decodeText fails) input start
    have free : s.dec.st ≠ .busy := by simp [error]
    exact ⟨error, cause, olen, decTurn_of_not_busy free, fun k t => steps_of_dec_not_busy free⟩
  · have whole := whole_of_decodeText_digit fails
    have inside : i < b.length := (List.getElem?_eq_some_iff.1 unit).1
    obtain ⟨p, turns, quanta⟩ := exists_groups_before inside before
    have index : 8 * (p.length / 5) + i % 8 = i := by omega
    have ending := decEnding_failed quanta (by omega) (Nat.mod_lt i (by decide)) (index.symm ▸ unit) foreign
    rw [← turns]
    exact ending.decTakes (decAfter_start whole input start)

end Sys2Proof.Machine
end

section
/-! CERTIFICATE. The host-side adapter in front of DEC (43_input_normalization.md): what it answers for each kind of value, and that
its errors come before those of the decoder. -/

namespace Sys2Proof.Machine

/-! ### NORMALIZE -/

theorem normalizeValue_text_of_ascii {cps : List Nat} (ascii : ∀ cp ∈ cps, cp ≤ 0x7F) :
    normalizeValue (.text cps) = .ok (cps.map (BitVec.ofNat 8)) := by
  rw [normalizeValue, if_pos (by simpa using ascii)]

theorem normalizeValue_text_of_wide {cps : List Nat} (wide : ∃ cp ∈ cps, 0x7F < cp) :
    normalizeValue (.text cps) = .error .invalidCharacterSet := by
  rw [normalizeValue, if_neg (by simpa using wide)]

/-- No bit of a code point is lost when it becomes a code unit: it was tested first (R243). -/
theorem map_toNat_ofNat_of_ascii {cps : List Nat} (ascii : ∀ cp ∈ cps, cp ≤ 0x7F) :
    (cps.map (BitVec.ofNat 8)).map BitVec.toNat = cps := by
  have kept : ∀ cp ∈ cps, (BitVec.ofNat 8 cp).toNat = cp := fun cp mem =>
    Nat.mod_eq_of_lt ((ascii cp mem).trans_lt (by decide))
  rw [List.map_map]
  exact (List.map_congr_left kept).trans (List.map_id cps)

theorem normalizeValue_other_of_view {tag : Nat} {us : List Byte} (view : Config.view tag = some us) :
    normalizeValue (.other tag) = .ok us := by
  rw [normalizeValue, view]

theorem normalizeValue_other_of_no_view {tag : Nat} (noView : Config.view tag = none) :
    normalizeValue (.other tag) = .error .unsupportedType := by
  rw [normalizeValue, noView]

/-! ### The document's decode -/

section

variable {x : HostValue} {us : List Byte}

theorem decodeValue_of_adapter_error {e : AdapterError} (fails : normalizeValue x = .error e) :
    decodeValue x = .error (.adapter e) := by
  rw [decodeValue, fails]

/-- A value the adapter accepts decodes as its code units do. -/
theorem decodeValue_of_units (units : normalizeValue x = .ok us) :
    decodeValue x = (decodeText us).mapError .malformedInput := by
  simp only [decodeValue, units]
  cases decodeText us <;> rfl

theorem decodeValue_eq_ok_iff (units : normalizeValue x = .ok us) {b : List Byte} :
    decodeValue x = .ok b ↔ decodeText us = .ok b := by
  rw [decodeValue_of_units units]
  cases decodeText us <;> simp [Except.mapError]

theorem decodeValue_eq_malformedInput_iff (units : normalizeValue x = .ok us) {c : Cause} :
    decodeValue x = .error (.malformedInput c) ↔ decodeText us = .error c := by
  rw [decodeValue_of_units units]
  cases decodeText us <;> simp [Except.mapError]

theorem decodeValue_ne_adapter (units : normalizeValue x = .ok us) (e : AdapterError) :
    decodeValue x ≠ .error (.adapter e) := by
  rw [decodeValue_of_units units]
  cases decodeText us <;> simp [Except.mapError]

end

/-! ### Submitting a value -/

section

variable {x : HostValue} {s : State}

theorem hostAct_submit_of_adapter_error {e : AdapterError} (fails : normalizeValue x = .error e) :
    hostAct (.submit x) s = .next (reply (.adapter e) s) := by
  rw [hostAct, fails]

theorem hostAct_submit_of_units {us : List Byte} (units : normalizeValue x = .ok us) :
    hostAct (.submit x) s = .next { s with script := operate .dec us ++ s.script } := by
  rw [hostAct, units]

end

/-- Settles O50: what NORMALIZE answers for each kind of value; of its units the decoder tests the length first; and a failed
submission is a reply and nothing else. -/
theorem adapterComesFirst : Obligations.AdapterComesFirst := by
  refine ⟨fun cps wide => ?_, fun cps ascii => ?_, fun us => rfl, fun tag noView => ?_,
    fun tag us => normalizeValue_other_of_view, fun x us units bad => ?_, fun x us units whole foreign => ?_, fun x e s fails => ?_⟩
  · have fails := normalizeValue_text_of_wide wide
    exact ⟨fails, decodeValue_of_adapter_error fails⟩
  · exact ⟨_, normalizeValue_text_of_ascii ascii, map_toNat_ofNat_of_ascii ascii⟩
  · have fails := normalizeValue_other_of_no_view noView
    exact ⟨fails, decodeValue_of_adapter_error fails⟩
  · obtain ⟨badLength, -⟩ := decodeOutcomes us
    exact (decodeValue_eq_malformedInput_iff units).2 (badLength bad)
  · obtain ⟨-, foreignUnit, -⟩ := decodeOutcomes us
    exact (decodeValue_eq_malformedInput_iff units).2 (foreignUnit whole foreign)
  · exact ⟨_, hostAct_submit_of_adapter_error fails, rfl, rfl, rfl, rfl⟩

end Sys2Proof.Machine
end

section
/-! SUPPORT. Runs by some order of turns: no turn reads the order of turns, so the turns of one agent after another, each agent run
alone, make one run of the machine (R20). -/

namespace Sys2Proof.Machine

/-! ### No turn reads the order of turns -/

section

variable {s t : State} (ts : List Agent)

theorem exec_setTurns {i : Instr} (h : exec i s = .next t) : exec i { s with turns := ts } = .next { t with turns := ts } := by
  rcases exec_cases h with ⟨rfl, rfl⟩ | ⟨rfl, free, rfl⟩ | ⟨rfl, free, bad, rfl⟩ | ⟨rfl, free, whole, rfl⟩ | ⟨v, value, rfl⟩
  · rfl
  · exact exec_enc_of_not_busy free
  · exact exec_dec_of_bad_length free bad
  · exact exec_dec_of_whole free whole
  · exact exec_of_symValue value _

theorem hostAct_setTurns {a : HostAct} (h : hostAct a s = .next t) :
    hostAct a { s with turns := ts } = .next { t with turns := ts } := by
  cases a with
  | rst =>
    cases h
    rfl
  | readCmd => cases h
  | writeCmd w =>
    cases decoded : decodeCmd w with
    | error e =>
      rw [hostAct_writeCmd_reserved decoded] at h
      cases h
    | ok i =>
      rw [hostAct_writeCmd decoded] at h ⊢
      exact exec_setTurns ts h
  | readSt x | read x =>
    cases h
    cases x <;> rfl
  | writeLen x | writeIn x | readLen x | readOlen x =>
    rw [hostAct] at h
    split at h <;> cases h
    cases x <;> exact if_neg ‹_›
  | readErr =>
    rw [hostAct] at h
    split at h <;> cases h
    exact if_neg ‹_›
  | readIn x i =>
    rw [hostAct] at h
    split at h
    · cases h
    · split at h <;> cases h
      cases x <;> exact hostAct_readIn_of_some ‹_› ‹_›
  | readOut x i =>
    rw [hostAct] at h
    split at h
    next readable =>
      obtain ⟨done, inside⟩ := readable
      split at h <;> cases h
      cases x <;> exact hostAct_readOut_of_some done inside ‹_›
    next => cases h
  | wait x =>
    cases h
    simp only [hostAct, st_hostFields]
    split <;> rfl
  | submit x =>
    rw [hostAct] at h ⊢
    split at h <;> cases h <;> rfl

theorem agentTurn_setTurns {a : Agent} (h : agentTurn a s = .next t) :
    agentTurn a { s with turns := ts } = .next { t with turns := ts } := by
  cases a with
  | host =>
    rcases hostTurn_cases h with ⟨script, rfl⟩ | ⟨a, rest, script, act⟩
    · rw [agentTurn, hostTurn, script]
    · exact (hostTurn_cons (s := { s with turns := ts }) script).trans (hostAct_setTurns ts act)
  | enc =>
    rcases encTurn_cases h with ⟨free, rfl⟩ | ⟨busy, all, rfl⟩ | ⟨busy, lt, b0, b1, b2, b3, b4, ops, rfl⟩
    · exact encTurn_of_not_busy free
    · exact encTurn_of_all_encoded busy all
    · exact encTurn_of_operands busy lt ops
  | dec =>
    rcases decTurn_cases h with ⟨free, rfl⟩ | ⟨busy, all, rfl⟩ | ⟨busy, lt, cs, vs, ops, symbols, rfl⟩ |
      ⟨busy, lt, ⟨cs, ops, foreign⟩, rfl⟩
    · exact decTurn_of_not_busy free
    · exact decTurn_of_all_decoded busy all
    · exact decTurn_of_symbols busy lt ops symbols
    · exact decTurn_of_foreign busy lt ops foreign

end

/-! ### Reachability by some order of turns -/

/-- Some turns, whatever turns come after them, take `s` to `t`. -/
def Reaches (s t : State) : Prop :=
  ∃ ts : List Agent, ∀ rest, steps ts.length { s with turns := ts ++ rest } = .next { t with turns := rest }

theorem Reaches.refl (s : State) : Reaches s s := ⟨[], fun _ => rfl⟩

theorem Reaches.trans {s t u : State} (first : Reaches s t) (second : Reaches t u) : Reaches s u := by
  obtain ⟨ts, first⟩ := first
  obtain ⟨ts', second⟩ := second
  refine ⟨ts ++ ts', fun rest => ?_⟩
  rw [List.length_append, List.append_assoc, steps_add (first _), second]

theorem Reaches.of_agentTurn {a : Agent} {s t : State} (turn : agentTurn a s = .next t) : Reaches s t :=
  ⟨[a], fun rest => steps_succ ((step_of_turns rfl).trans (agentTurn_setTurns (s := s) rest turn))⟩

/-- What an agent does alone, the machine does when the turns are that agent's. -/
theorem Reaches.of_turnsOf {a : Agent} {k : Nat} {s t : State} (run : turnsOf a k s = .next t) : Reaches s t := by
  induction k generalizing s with
  | zero =>
    cases run
    exact .refl _
  | succ k ih =>
    cases turn : agentTurn a s with
    | next u => exact .trans (.of_agentTurn turn) (ih ((turnsOf_succ turn).symm.trans run))
    | fault | refused => simp [turnsOf, turn] at run

/-- With no turns left over, the turns are an order that runs to the end. -/
theorem Reaches.exists_run {s t : State} (h : Reaches s t) :
    ∃ ts : List Agent, steps ts.length { s with turns := ts } = .next { t with turns := [] } := by
  obtain ⟨ts, run⟩ := h
  exact ⟨ts, by simpa using run []⟩

/-- The host's next action, when it is answered. -/
theorem Reaches.of_hostAct {a : HostAct} {rest : List HostAct} {s t : State} (script : s.script = a :: rest)
    (act : hostAct a { s with script := rest } = .next t) : Reaches s t :=
  .of_agentTurn (a := .host) ((hostTurn_cons script).trans act)

end Sys2Proof.Machine
end

section
/-! CERTIFICATE. The document's `decode` on the machine: the host submits a value and an order of turns runs it to its end
(R191, R196). -/

namespace Sys2Proof.Machine

/-! ### The operation of DEC between START and WAIT -/

/-- DEC has ended an operation over `b` in the outcome of `Decode(b)`: its result, or the cause in `DEC.ERR` (R163, R202). -/
def HoldsDecode (b : List Byte) (s : State) : Prop :=
  (∀ x, decodeText b = .ok x → ResultIs .dec x s ∧ s.dec.err = .none) ∧
  (∀ c, decodeText b = .error c → s.dec.st = .error ∧ s.dec.err = .malformed c ∧ s.dec.olen = 0)

theorem HoldsDecode.of_ok {b x : List Byte} {s : State} (decodes : decodeText b = .ok x)
    (result : ResultIs .dec x s ∧ s.dec.err = .none) : HoldsDecode b s := by
  rw [HoldsDecode, decodes]
  refine ⟨fun y same => ?_, nofun⟩
  cases same
  exact result

theorem HoldsDecode.of_error {b : List Byte} {c : Cause} {s : State} (fails : decodeText b = .error c)
    (failed : s.dec.st = .error ∧ s.dec.err = .malformed c ∧ s.dec.olen = 0) : HoldsDecode b s := by
  rw [HoldsDecode, fails]
  refine ⟨nofun, fun d same => ?_⟩
  cases same
  exact failed

/-- A text that fails with DIGIT has a foreign unit, and so a first one (R156). -/
theorem exists_first_foreign {b : List Byte} (fails : decodeText b = .error .digit) :
    ∃ (i : Nat) (c : Byte), b[i]? = some c ∧ rev c = none ∧ ∀ j d, j < i → b[j]? = some d → rev d ≠ none := by
  classical
  have some_index : ∃ i : Nat, ∃ c, b[i]? = some c ∧ rev c = none := by
    rcases decodeText_cases b with ⟨-, length⟩ | ⟨-, ⟨c, mem, foreign⟩, -⟩ | ⟨p, -, -, decodes⟩
    · cases length.symm.trans fails
    · obtain ⟨i, unit⟩ := List.mem_iff_getElem?.1 mem
      exact ⟨i, c, unit, foreign⟩
    · cases decodes.symm.trans fails
  obtain ⟨c, unit, foreign⟩ := Nat.find_spec some_index
  exact ⟨_, c, unit, foreign, fun j d before unit' foreign' => Nat.find_min some_index before ⟨d, unit', foreign'⟩⟩

/-- After START, turns of DEC alone end its operation in the outcome of `Decode` (R170). -/
theorem exists_turnsOf_dec_holdsDecode {b : List Byte} {s0 s : State} (start : exec .dec s0 = .next s)
    (input : InputIs .dec b s0) : ∃ n u, turnsOf .dec n s = .next u ∧ HoldsDecode b u := by
  obtain ⟨succeeds, badLength, badDigit⟩ := decoderStepsComputeDecode b s0 s input start
  match outcome : decodeText b with
  | .ok x =>
    obtain ⟨-, ⟨u, run, result⟩, -⟩ := succeeds x outcome
    exact ⟨_, u, run, .of_ok outcome result⟩
  | .error .length =>
    obtain ⟨error, cause, olen, -⟩ := badLength outcome
    exact ⟨0, s, rfl, .of_error outcome ⟨error, cause, olen⟩⟩
  | .error .digit =>
    obtain ⟨i, c, unit, foreign, before⟩ := exists_first_foreign outcome
    obtain ⟨-, ⟨u, run, failed⟩, -⟩ := badDigit i c outcome unit foreign before
    exact ⟨_, u, run, .of_error outcome failed⟩

theorem turnsOf_dec_frame {k : Nat} {s t : State} (run : turnsOf .dec k s = .next t) : t.enc = s.enc ∧ t.script = s.script := by
  induction k generalizing s with
  | zero =>
    cases run
    exact ⟨rfl, rfl⟩
  | succ k ih =>
    cases turn : agentTurn .dec s with
    | next u =>
      obtain ⟨-, -, enc, script, -⟩ := decTurn_frame turn
      rw [turnsOf_succ turn] at run
      rw [← enc, ← script]
      exact ih run
    | fault | refused => simp [turnsOf, turn] at run

/-! ### WAIT and READ -/

/-- WAIT is done, and READ answered, when DEC has ended its operation: only the script and the replies change (R89). -/
theorem HoldsDecode.reaches_read {b : List Byte} {s : State} {rest : List HostAct} (holds : HoldsDecode b s)
    (script : s.script = .wait .dec :: .read .dec :: rest) : ∃ rs, Reaches s { s with script := rest, replies := rs } := by
  obtain ⟨result, cause⟩ := holds
  obtain ⟨readDone, readError, -⟩ := readReportsTheOutcome
  obtain ⟨-, waited⟩ := waitPollsTheStatus s .dec _ script
  match outcome : decodeText b with
  | .ok x =>
    obtain ⟨held, -⟩ := result x outcome
    have ⟨(done : s.dec.st = .done), _⟩ := held
    have free : s.st .dec ≠ .busy := by simp [done]
    exact ⟨_, .trans (.of_agentTurn (a := .host) (waited free)) (.of_turnsOf (readDone _ .dec x rest held rfl))⟩
  | .error c =>
    obtain ⟨error, -⟩ := cause c outcome
    have free : s.st .dec ≠ .busy := by simp [error]
    exact ⟨_, .trans (.of_agentTurn (a := .host) (waited free)) (.of_turnsOf (readError _ rest error rfl))⟩

/-! ### The whole operation -/

/-- START is answered when DEC is not BUSY (R165). -/
theorem exists_exec_dec {s : State} (free : s.dec.st ≠ .busy) :
    ∃ t, exec .dec s = .next t ∧ t.enc = s.enc ∧ t.script = s.script := by
  by_cases whole : s.dec.len % 8 = 0
  · exact ⟨_, exec_dec_of_whole free whole, rfl, rfl⟩
  · exact ⟨_, exec_dec_of_bad_length free whole, rfl, rfl⟩

/-- `DEC lit` (R89), when DEC is not BUSY: an order of turns runs it to its end, in the outcome of `Decode`, and leaves ENC alone. -/
theorem exists_reaches_operate_dec {b : List Byte} {s : State} {rest : List HostAct} (free : s.dec.st ≠ .busy)
    (script : s.script = operate .dec b ++ rest) :
    ∃ t, Reaches s t ∧ t.script = rest ∧ t.enc = s.enc ∧ HoldsDecode b t := by
  have script : s.script = load .dec b ++ (.writeCmd 0b10 :: .wait .dec :: .read .dec :: rest) := by
    rw [script, operate, List.append_assoc, List.append_assoc]
    rfl
  obtain ⟨s1, load, input, script1, -, status, -⟩ := loadWritesTheInput s .dec b _ free script
  have enc1 : s1.enc = s.enc := by
    cases (turnsOf_load (x := .dec) free script).symm.trans load
    rfl
  have ⟨(st1 : s1.dec.st = s.dec.st), _⟩ := status .dec
  obtain ⟨s2, start, enc2, script2⟩ :=
    exists_exec_dec (s := { s1 with script := .wait .dec :: .read .dec :: rest }) (st1 ▸ free)
  obtain ⟨n, s3, decode, holds⟩ := exists_turnsOf_dec_holdsDecode start input
  obtain ⟨enc3, script3⟩ := turnsOf_dec_frame decode
  obtain ⟨rs, read⟩ := holds.reaches_read (script3.trans script2)
  obtain ⟨-, -, word, -⟩ := decodeCmd_words
  have loaded : Reaches s s1 := .of_turnsOf load
  have started : Reaches s1 s2 := .of_hostAct script1 ((hostAct_writeCmd word _).trans start)
  have decoded : Reaches s2 s3 := .of_turnsOf decode
  exact ⟨_, loaded.trans (started.trans (decoded.trans read)), rfl, enc3.trans (enc2.trans enc1), holds⟩

/-- Settles O55: a value the adapter refuses is one reply; the units of any other are loaded, decoded and read back, the turns of DEC
between those of the host. -/
theorem submittedValueIsDecoded : Obligations.SubmittedValueIsDecoded := by
  intro s x free script
  cases normalized : normalizeValue x with
  | error e =>
    have replied := Reaches.of_hostAct script (hostAct_submit_of_adapter_error normalized)
    obtain ⟨ts, run⟩ := replied.exists_run
    rw [decodeValue_of_adapter_error normalized]
    refine ⟨ts, _, run, rfl, rfl, rfl, nofun, nofun, fun e' same => ?_⟩
    cases same
    exact ⟨rfl, rfl⟩
  | ok us =>
    have submitted := Reaches.of_hostAct script (hostAct_submit_of_units normalized)
    obtain ⟨t, operated, scriptDone, enc, result, cause⟩ := exists_reaches_operate_dec
      (s := { s with script := operate .dec us ++ [] }) free rfl
    obtain ⟨ts, run⟩ := (submitted.trans operated).exists_run
    exact ⟨ts, _, run, scriptDone, rfl, enc, fun b decodes => result b ((decodeValue_eq_ok_iff normalized).1 decodes),
      fun c fails => cause c ((decodeValue_eq_malformedInput_iff normalized).1 fails),
      fun e fails => absurd fails (decodeValue_ne_adapter normalized e)⟩

end Sys2Proof.Machine
end

section
/-! CERTIFICATE. The status registers over every step (R25, R223) and what a decoder in ERROR keeps (R212), read off the transitions of
either engine's registers. -/

namespace Sys2Proof.Machine

section

variable {s : State} {e : EncRegs} {d : DecRegs}

/-- The transitions of `ENC.ST` (R25): only reset, START and FINISH change it, so only FINISH and reset leave BUSY (R223). -/
theorem StepOnEnc.st_transitions (h : StepOnEnc s e) :
    e.st = s.enc.st ∨ (HostDoes .rst s ∧ e.st = .idle) ∨ (EncStarts s ∧ e.st = .busy) ∨ (EncFinishes s ∧ e.st = .done) := by
  cases h with
  | keep | group => exact .inl rfl
  | finish fin => exact .inr (.inr (.inr ⟨fin, rfl⟩))
  | host does on =>
    cases on with
    | keep | writeLen | writeIn => exact .inl rfl
    | reset => exact .inr (.inl ⟨does, rfl⟩)
    | start free => exact .inr (.inr (.inl ⟨⟨does, free⟩, rfl⟩))

/-- The transitions of `DEC.ST` (R25): only reset, START, FINISH and a GROUP step that meets a foreign unit change it, so only the
engine's own FINISH or GROUP and reset leave BUSY (R223). -/
theorem StepOnDec.st_transitions (h : StepOnDec s d) :
    d.st = s.dec.st ∨ (HostDoes .rst s ∧ d.st = .idle) ∨
    (DecStarts s ∧ d.st = (if s.dec.len % 8 = 0 then .busy else .error)) ∨ (DecFinishes s ∧ d.st = .done) ∨
    (DecGroups s ∧ d.st = .error) := by
  cases h with
  | keep | group => exact .inl rfl
  | finish fin => exact .inr (.inr (.inr (.inl ⟨fin, rfl⟩)))
  | groupBadDigit grp => exact .inr (.inr (.inr (.inr ⟨grp, rfl⟩)))
  | host does on =>
    cases on with
    | keep | writeLen | writeIn => exact .inl rfl
    | reset => exact .inr (.inl ⟨does, rfl⟩)
    | start free len => exact .inr (.inr (.inl ⟨⟨does, free⟩, (if_pos len).symm⟩))
    | startBadLength free len => exact .inr (.inr (.inl ⟨⟨does, free⟩, (if_neg len).symm⟩))

/-- Of a decoder in ERROR (R212): the engine itself takes no step, and of the host's actions only reset and START touch the status,
the cause or the result. -/
theorem StepOnDec.of_error (error : s.dec.st = .error) (h : StepOnDec s d) :
    (d.st = .error ∧ d.err = s.dec.err ∧ d.olen = s.dec.olen ∧ d.out = s.dec.out) ∨
    (HostDoes .rst s ∧ d.st = .idle ∧ d.err = .none ∧ d.olen = 0) ∨
    (HostDoes (.writeCmd 0b10) s ∧ d.olen = 0 ∧ d.st = (if s.dec.len % 8 = 0 then .busy else .error) ∧
      d.err = (if s.dec.len % 8 = 0 then .none else .malformed .length)) := by
  have notBusy : s.dec.st ≠ .busy := by simp [error]
  cases h with
  | keep => exact .inl ⟨error, rfl, rfl, rfl⟩
  | finish engineStep | group engineStep | groupBadDigit engineStep =>
    obtain ⟨-, busy, -⟩ := engineStep
    exact absurd busy notBusy
  | host does on =>
    cases on with
    | keep | writeLen | writeIn => exact .inl ⟨error, rfl, rfl, rfl⟩
    | reset => exact .inr (.inl ⟨does, rfl, rfl, rfl⟩)
    | start _ len => exact .inr (.inr ⟨does, rfl, (if_pos len).symm, (if_pos len).symm⟩)
    | startBadLength _ len => exact .inr (.inr ⟨does, rfl, (if_neg len).symm, (if_neg len).symm⟩)

end

/-- Settles O25: a step is one transition of each engine's registers; what it does to the status is read off it. -/
theorem statusTransitions : Obligations.StatusTransitions := by
  intro s t h
  obtain ⟨onEnc, onDec⟩ := step_on h
  have hE := onEnc.st_transitions
  have hD := onDec.st_transitions
  simp only [and_assoc] at hE hD
  exact ⟨hE, hD⟩

/-- Settles O27: a step is one transition of DEC's registers, and in ERROR only START and reset touch status, cause or result. -/
theorem errorPersistsUntilStartOrReset : Obligations.ErrorPersistsUntilStartOrReset := by
  intro s t error h
  obtain ⟨-, onDec⟩ := step_on h
  simpa only [and_assoc] using onDec.of_error error

end Sys2Proof.Machine
end

section
/-! CERTIFICATE. Finite widths (R240 with R24): under the invariant, and with a host that keeps to `LENW`, every transition of either
engine keeps the bounds, and so does what the host puts on its script. -/

namespace Sys2Proof.Machine

/-! ### The bounds of each engine -/

/-- The part of `Fits` that speaks of ENC. -/
structure EncFits (lenw : Nat) (e : EncRegs) : Prop where
  len  : e.len ≤ Config.maxIn lenw
  grp  : e.grp ≤ (Config.maxIn lenw + 4) / 5
  olen : e.olen ≤ Config.encOutCap lenw
  inp  : ∀ c ∈ e.inp, c.1 < Config.maxIn lenw
  out  : ∀ c ∈ e.out, c.1 < Config.encOutCap lenw

/-- The part of `Fits` that speaks of DEC. -/
structure DecFits (lenw : Nat) (d : DecRegs) : Prop where
  len  : d.len ≤ Config.maxIn lenw
  grp  : d.grp ≤ Config.maxIn lenw / 8
  olen : d.olen ≤ Config.decOutCap lenw
  inp  : ∀ c ∈ d.inp, c.1 < Config.maxIn lenw
  out  : ∀ c ∈ d.out, c.1 < Config.decOutCap lenw

section

variable {lenw : Nat} {s : State}

theorem fits_iff : Fits lenw s ↔ EncFits lenw s.enc ∧ DecFits lenw s.dec := by
  constructor
  · intro h
    exact ⟨⟨h.encLen, h.encGrp, h.encOlen, h.encIn, h.encOut⟩, ⟨h.decLen, h.decGrp, h.decOlen, h.decIn, h.decOut⟩⟩
  · rintro ⟨e, d⟩
    exact ⟨e.len, d.len, e.grp, d.grp, e.olen, d.olen, e.inp, d.inp, e.out, d.out⟩

/-- Cells stay below a bound when the cell written is below it. -/
theorem Memory.write_lt {m : Memory} {n i : Nat} (cells : ∀ c ∈ m, c.1 < n) (hi : i < n) (v : Byte) :
    ∀ c ∈ m.write i v, c.1 < n := by
  intro c mem
  rcases Memory.mem_write mem with rfl | old
  · exact hi
  · exact cells c old

/-- Cells stay below a bound when the range written is below it. -/
theorem Memory.writeUnits_lt {m : Memory} {n base : Nat} {cs : List Byte} (cells : ∀ c ∈ m, c.1 < n)
    (range : base + cs.length ≤ n) : ∀ c ∈ m.writeUnits base cs, c.1 < n := by
  intro c mem
  rcases Memory.mem_writeUnits mem with old | ⟨-, written⟩
  · exact cells c old
  · omega

/-! ### The encoder -/

theorem encFits_reset : EncFits lenw State.reset.enc :=
  ⟨Nat.zero_le _, Nat.zero_le _, Nat.zero_le _, nofun, nofun⟩

theorem HostOnEnc.keeps_fits {a : HostAct} {e e' : EncRegs} (h : HostOnEnc a e e') (wf : HostAct.wf lenw a = true)
    (fits : EncFits lenw e) : EncFits lenw e' := by
  cases h with
  | keep => exact fits
  | reset => exact encFits_reset
  | start => exact { fits with grp := Nat.zero_le _, olen := Nat.zero_le _ }
  | writeLen n => exact { fits with len := of_decide_eq_true wf }
  | writeIn i v => exact { fits with inp := Memory.write_lt fits.inp (of_decide_eq_true wf) v }

/-- Each GROUP has a byte before `ENC.LEN`, so its quantum is one of the `ceil(MAX_IN / 5)` that `ENC.OUT` has room for. -/
theorem StepOnEnc.keeps_fits {e : EncRegs} (h : StepOnEnc s e) (script : ScriptWf lenw s) (fits : EncFits lenw s.enc) :
    EncFits lenw e := by
  have ⟨len, grp, _, _, out⟩ := fits
  cases h with
  | keep => exact fits
  | host does on =>
    obtain ⟨-, next⟩ := does
    exact on.keeps_fits (script _ (List.mem_of_head? next)) fits
  | finish => exact { fits with olen := Nat.mul_le_mul_left 8 grp }
  | group group w =>
    obtain ⟨-, -, more⟩ := group
    have room : s.enc.grp + 1 ≤ (Config.maxIn lenw + 4) / 5 := by omega
    exact { fits with grp := room, out := Memory.writeUnits_lt out (Nat.mul_le_mul_left 8 room) }

/-! ### The decoder -/

theorem decFits_reset : DecFits lenw State.reset.dec :=
  ⟨Nat.zero_le _, Nat.zero_le _, Nat.zero_le _, nofun, nofun⟩

theorem HostOnDec.keeps_fits {a : HostAct} {d d' : DecRegs} (h : HostOnDec a d d') (wf : HostAct.wf lenw a = true)
    (fits : DecFits lenw d) : DecFits lenw d' := by
  cases h with
  | keep => exact fits
  | reset => exact decFits_reset
  | start | startBadLength => exact { fits with grp := Nat.zero_le _, olen := Nat.zero_le _ }
  | writeLen n => exact { fits with len := of_decide_eq_true wf }
  | writeIn i v => exact { fits with inp := Memory.write_lt fits.inp (of_decide_eq_true wf) v }

/-- The length of a running decode is a multiple of 8 (the invariant), so each GROUP has a whole quantum before `DEC.LEN`, and its
five bytes are among the `5 * floor(MAX_IN / 8)` that `DEC.OUT` has room for. -/
theorem StepOnDec.keeps_fits {d : DecRegs} (h : StepOnDec s d) (inv : DecInv s.dec) (script : ScriptWf lenw s)
    (fits : DecFits lenw s.dec) : DecFits lenw d := by
  have ⟨len, grp, _, _, out⟩ := fits
  cases h with
  | keep => exact fits
  | host does on =>
    obtain ⟨-, next⟩ := does
    exact on.keeps_fits (script _ (List.mem_of_head? next)) fits
  | finish => exact { fits with olen := Nat.mul_le_mul_left 5 grp }
  | group group w =>
    obtain ⟨-, busy, more⟩ := group
    obtain ⟨whole, -⟩ := inv.busyLen busy
    have room : s.dec.grp + 1 ≤ Config.maxIn lenw / 8 := by omega
    exact { fits with grp := room, out := Memory.writeUnits_lt out (Nat.mul_le_mul_left 5 room) }
  | groupBadDigit => exact { fits with olen := Nat.zero_le _ }

/-! ### The host's script -/

/-- The reads of a result stay inside the output buffer, because `X.OLEN` does. -/
theorem wf_readRest (fits : Fits lenw s) (x : Engine) : ∀ a ∈ readRest s x, HostAct.wf lenw a = true := by
  rw [readRest, List.forall_mem_append, List.forall_mem_append, List.forall_mem_singleton]
  refine ⟨⟨rfl, ?_⟩, ?_⟩ <;> split
  · exact List.forall_mem_singleton.2 rfl
  · exact List.forall_mem_nil _
  · refine List.forall_mem_map.2 fun i mem => ?_
    have inside : i < s.olen x := List.mem_range.1 mem
    cases x with
    | enc => exact decide_eq_true (inside.trans_le fits.encOlen)
    | dec => exact decide_eq_true (inside.trans_le fits.decOlen)
  · exact List.forall_mem_nil _

/-- A literal of at most `MAX_IN` units is loaded inside the input buffer. -/
theorem wf_operate_dec {lit : List Byte} (short : lit.length ≤ Config.maxIn lenw) :
    ∀ a ∈ operate .dec lit, HostAct.wf lenw a = true := by
  rw [operate, load, start, List.forall_mem_append, List.forall_mem_append, List.forall_mem_append, List.forall_mem_map,
    List.forall_mem_singleton, List.forall_mem_singleton, List.forall_mem_cons, List.forall_mem_singleton]
  refine ⟨⟨⟨?_, decide_eq_true short⟩, rfl⟩, rfl, rfl⟩
  rintro ⟨c, i⟩ mem
  have inside : i < lit.length := (List.getElem?_eq_some_iff.1 (List.mem_zipIdx_iff_getElem?.1 mem)).1
  exact decide_eq_true (inside.trans_le short)

/-- What a well-formed action puts on the script is well formed too. -/
theorem hostAct_scriptWf {a : HostAct} {t : State} (fits : Fits lenw s) (act : HostAct.wf lenw a = true)
    (rest : ScriptWf lenw s) (h : hostAct a s = .next t) : ScriptWf lenw t := by
  rcases hostAct_cases h with ⟨-, rfl⟩ | ⟨w, i, -, -, hx⟩ | ⟨x, n, -, -, rfl⟩ | ⟨x, i, v, -, -, rfl⟩ | own
  · exact rest
  · rwa [ScriptWf, (exec_turns_script hx).2]
  · rwa [ScriptWf, script_setLen]
  · rwa [ScriptWf, script_memWrite]
  · rcases own with ⟨x, -, rfl⟩ | ⟨_, rfl, rfl | rfl⟩ | ⟨v, us, rfl, units, rfl⟩ | ⟨_, rfl⟩
    · exact List.forall_mem_append.2 ⟨wf_readRest fits x, rest⟩
    · exact rest
    · exact List.forall_mem_cons.2 ⟨act, rest⟩
    · have short : us.length ≤ Config.maxIn lenw := by simpa [HostAct.wf, units] using act
      exact List.forall_mem_append.2 ⟨wf_operate_dec short, rest⟩
    · exact rest

/-- A step keeps the script well formed: an engine does not write it, and the host takes its first action off it. -/
theorem step_scriptWf {t : State} (fits : Fits lenw s) (script : ScriptWf lenw s) (h : step s = .next t) :
    ScriptWf lenw t := by
  obtain ⟨enc, dec, kept, -⟩ := takeTurn_frame s
  have taken : ScriptWf lenw (takeTurn s).2 := by rwa [ScriptWf, kept]
  rcases step_cases h with ⟨-, turn⟩ | ⟨-, turn⟩ | ⟨-, turn⟩
  · rcases hostTurn_cases turn with ⟨-, rfl⟩ | ⟨a, rest, cons, act⟩
    · exact taken
    · rw [ScriptWf, cons, List.forall_mem_cons] at taken
      obtain ⟨first, others⟩ := taken
      have fits' : Fits lenw { (takeTurn s).2 with script := rest } := by rwa [fits_iff, enc, dec, ← fits_iff]
      exact hostAct_scriptWf fits' first others act
  · obtain ⟨-, -, -, script', -⟩ := encTurn_frame turn
    rwa [ScriptWf, script']
  · obtain ⟨-, -, -, script', -⟩ := decTurn_frame turn
    rwa [ScriptWf, script']

/-! ### The register widths -/

/-- The bounds are below the widths of R21 and R22. -/
theorem Fits.below_widths (fits : Fits lenw s) :
    s.enc.len < 2 ^ lenw ∧ s.dec.len < 2 ^ lenw ∧ s.enc.grp < 2 ^ lenw ∧ s.dec.grp < 2 ^ lenw ∧
      s.enc.olen < 2 ^ (lenw + 3) ∧ s.dec.olen < 2 ^ lenw := by
  obtain ⟨⟨encLen, encGrp, encOlen, -, -⟩, decLen, decGrp, decOlen, -, -⟩ := fits_iff.1 fits
  have pos : 0 < 2 ^ lenw := Nat.two_pow_pos lenw
  have wide : 2 ^ (lenw + 3) = 8 * 2 ^ lenw := by rw [Nat.pow_add, Nat.mul_comm]
  simp only [Config.encOutCap, Config.decOutCap, Config.maxIn] at encLen encGrp encOlen decLen decGrp decOlen
  refine ⟨?_, ?_, ?_, ?_, ?_, ?_⟩ <;> omega

end

/-- Settles O52: a step is one transition of each engine's registers, and each keeps that engine's bounds; the host's script stays
within them because what READ and the adapter put on it does. -/
theorem finiteWidthsAreNeverExceeded : Obligations.FiniteWidthsAreNeverExceeded := by
  refine ⟨fun lenw s t good fits script h => ⟨?_, step_scriptWf fits script h⟩, fun lenw s fits => fits.below_widths⟩
  obtain ⟨onEnc, onDec⟩ := step_on h
  obtain ⟨encFits, decFits⟩ := fits_iff.1 fits
  exact fits_iff.2 ⟨onEnc.keeps_fits script encFits, onDec.keeps_fits good.dec script decFits⟩

end Sys2Proof.Machine
end

section
/-! CERTIFICATE. The steps that are always there or always refused: progress of a BUSY engine (R222, R246), unwritten input (R233),
reset (R230), and the accesses that have no meaning (R234 to R239). -/

namespace Sys2Proof.Machine

/-! ### GROUP on written and on unwritten input -/

section

variable {s : State}

/-- A padded read that is not answered leaves no operands. -/
theorem encOperands_eq_none {g k : Nat} (hk : k < 5) (unread : inb s (5 * g + k) = none) : encOperands s g = none := by
  rw [Option.eq_none_iff_forall_ne_some]
  rintro ⟨b0, b1, b2, b3, b4⟩ ops
  have unit := encOperands_eq_some.1 ops k hk
  rw [unread, eq_comm, List.getElem?_eq_none_iff] at unit
  exact absurd hk (Nat.not_lt.2 unit)

theorem encTurn_of_no_operands (busy : s.enc.st = .busy) (lt : 5 * s.enc.grp < s.enc.len)
    (ops : encOperands s s.enc.grp = none) : encTurn s = .refused .noValue := by
  rw [encTurn, if_pos busy, if_pos lt, encGroup, ops]

theorem decTurn_of_no_operands (busy : s.dec.st = .busy) (lt : 8 * s.dec.grp < s.dec.len)
    (ops : decOperands s s.dec.grp = none) : decTurn s = .refused .noValue := by
  rw [decTurn, if_pos busy, if_pos lt, decGroup, ops]

/-- A BUSY encoder with its input written takes one more group, or finishes. -/
theorem encTurn_progress (busy : s.enc.st = .busy) (written : ∀ i, i < s.enc.len → (memRead .encIn i s).isSome = true) :
    ∃ t, encTurn s = .next t ∧ ((t.enc.st = .busy ∧ t.enc.grp = s.enc.grp + 1) ∨ t.enc.st = .done) := by
  rcases Nat.lt_or_ge (5 * s.enc.grp) s.enc.len with more | all
  · obtain ⟨b0, b1, b2, b3, b4, ops⟩ := exists_encOperands fun k _ => inb_isSome (written (5 * s.enc.grp + k))
    exact ⟨_, encTurn_of_operands busy more ops, .inl ⟨busy, rfl⟩⟩
  · exact ⟨_, encTurn_of_all_encoded busy all, .inr rfl⟩

/-- A BUSY decoder with its input written takes one more quantum, fails on it, or finishes. The invariant puts the whole quantum
before `DEC.LEN`, where the input is written. -/
theorem decTurn_progress (inv : DecInv s.dec) (busy : s.dec.st = .busy)
    (written : ∀ i, i < s.dec.len → (memRead .decIn i s).isSome = true) :
    ∃ t, decTurn s = .next t ∧ ((t.dec.st = .busy ∧ t.dec.grp = s.dec.grp + 1) ∨ t.dec.st = .done ∨ t.dec.st = .error) := by
  rcases Nat.lt_or_ge (8 * s.dec.grp) s.dec.len with more | all
  · obtain ⟨whole, -⟩ := inv.busyLen busy
    obtain ⟨cs, ops⟩ := decOperands_isSome fun k hk => written (8 * s.dec.grp + k) (by omega)
    by_cases foreign : ∃ c ∈ cs, rev c = none
    · exact ⟨_, decTurn_of_foreign busy more ops foreign, .inr (.inr rfl)⟩
    · obtain ⟨vs, rfl⟩ := exists_eq_map_alphabet fun c mem reverse => foreign ⟨c, mem, reverse⟩
      exact ⟨_, decTurn_of_symbols busy more ops (mapM_rev_map_alphabet vs), .inl ⟨busy, rfl⟩⟩
  · exact ⟨_, decTurn_of_all_decoded busy all, .inr (.inl rfl)⟩

end

/-- Settles O21: an engine that is not BUSY has no turn to take; one that is BUSY has its GROUP or its FINISH. -/
theorem busyEnginesMakeProgress : Obligations.BusyEnginesMakeProgress :=
  ⟨fun _ => encTurn_of_not_busy, fun _ => decTurn_of_not_busy, fun _ _ => encTurn_progress,
    fun _ good => decTurn_progress good.dec⟩

/-- Settles O22: one unanswered read leaves no operands, whatever the other cells hold. -/
theorem unwrittenInputIsRefused : Obligations.UnwrittenInputIsRefused := by
  refine ⟨fun s k busy lt hk real unwritten => ?_, fun s k busy lt hk unwritten => ?_⟩
  · have unread : inb s (5 * s.enc.grp + k) = none := (if_pos real).trans unwritten
    exact encTurn_of_no_operands busy lt (encOperands_eq_none hk unread)
  · exact decTurn_of_no_operands busy lt (decOperands_eq_none hk unwritten)

/-! ### Steps of the host -/

/-- A step of the host is the first action of its script. -/
theorem step_of_hostAct {s u : State} {a : HostAct} {rest : List HostAct} (turn : takeTurn s = (.host, u))
    (script : s.script = a :: rest) : step s = hostAct a { u with script := rest } := by
  obtain ⟨-, -, kept, -⟩ := takeTurn_frame s
  rw [turn] at kept
  rw [step_eq, turn]
  exact hostTurn_cons (kept.trans script)

/-- Settles O3: the step is `execReset`, whose registers and buffers are those of the state after reset. -/
theorem rstAbandonsEveryOperation : Obligations.RstAbandonsEveryOperation := by
  intro s u rest turn script
  obtain ⟨-, -, -, replies⟩ := takeTurn_frame s
  rw [turn] at replies
  have noValue : ∀ sp i, memRead sp i (execReset { u with script := rest }) = none := by
    intro sp i
    cases sp <;> exact Memory.read_nil i
  exact ⟨_, step_of_hostAct turn script, rfl, rfl, rfl, rfl, rfl, rfl, rfl, rfl, rfl, noValue, rfl, rfl, rfl, replies⟩

/-- Settles O8: the step is the action, the word 0b11 decodes to no command, and `CMD` has no read. -/
theorem reservedCommandAndReadOfCmdAreRefused : Obligations.ReservedCommandAndReadOfCmdAreRefused := by
  obtain ⟨-, -, -, reserved⟩ := decodeCmd_words
  intro s u rest turn
  exact ⟨fun script => (step_of_hostAct turn script).trans (hostAct_writeCmd_reserved reserved _),
    fun script => step_of_hostAct turn script⟩

/-! ### Hazards of the protocol -/

/-- Settles O14: the answers of the two STARTs, each of which writes its own engine only. -/
theorem oneOperationPerEngine : Obligations.OneOperationPerEngine := by
  intro s
  refine ⟨exec_enc_of_busy, exec_dec_of_busy, fun free => ?_, fun free => ⟨_, exec_enc_of_not_busy free, rfl⟩⟩
  by_cases whole : s.dec.len % 8 = 0
  · exact ⟨_, exec_dec_of_whole free whole, rfl⟩
  · exact ⟨_, exec_dec_of_bad_length free whole, rfl⟩

section

variable {s : State} {x : Engine}

theorem hostAct_writeIn_busy (busy : s.st x = .busy) (i : Nat) (v : Byte) :
    hostAct (.writeIn x i v) s = .refused .writeWhileBusy := if_pos busy

theorem hostAct_writeLen_busy (busy : s.st x = .busy) (n : Nat) :
    hostAct (.writeLen x n) s = .refused .writeWhileBusy := if_pos busy

theorem hostAct_readErr_busy (busy : s.st .dec = .busy) : hostAct .readErr s = .refused .readWhileBusy := if_pos busy

end

/-- Settles O28: each clause is the refusal of the port it names. -/
theorem protocolHazardsAreRefused : Obligations.ProtocolHazardsAreRefused := by
  intro s x i v n
  exact ⟨fun busy => ⟨hostAct_writeIn_busy busy i v, hostAct_writeLen_busy busy n, hostAct_readOlen_busy busy⟩,
    hostAct_readErr_busy, hostAct_readOut_of_no_result⟩

end Sys2Proof.Machine
end

section
/-! CERTIFICATE. Where an input may be cut (R240): at whole groups for the encoder, at whole quanta for the decoder. -/

namespace Sys2Proof.Machine

/-- Padding is added at the end, so whole groups in front of an input stay in front of the padded input (R122). -/
theorem pad5_append {b : List Byte} (whole : b.length % 5 = 0) (b' : List Byte) : pad5 (b ++ b') = b ++ pad5 b' := by
  have padding : (b ++ b').length % 5 = b'.length % 5 := by rw [List.length_append]; omega
  rw [pad5, pad5, padding, List.append_assoc]

theorem encodeBytes_append {b : List Byte} (whole : b.length % 5 = 0) (b' : List Byte) :
    encodeBytes (b ++ b') = encodeBytes b ++ encodeBytes b' := by
  rw [encodeBytes, encodeBytes, encodeBytes, pad5_append whole, encodeGroups_append whole, pad5_of_whole whole]

/-- Settles O49: whole groups are encoded on their own; texts that decode are the encodings of the whole groups they decode to, so
their concatenation is the encoding of the concatenated groups. -/
theorem inputsMayBeCutAtGroups : Obligations.InputsMayBeCutAtGroups := by
  refine ⟨fun b b' whole => encodeBytes_append whole b', fun s s' x x' decodes decodes' => ?_⟩
  obtain ⟨whole, rfl⟩ := encodeGroups_of_decodeText decodes
  obtain ⟨whole', rfl⟩ := encodeGroups_of_decodeText decodes'
  have groups : (x ++ x').length % 5 = 0 := by rw [List.length_append]; omega
  have encoded : encodeBytes (x ++ x') = encodeGroups x ++ encodeGroups x' := by
    rw [encodeBytes, pad5_of_whole groups, encodeGroups_append whole]
  rw [← encoded]
  exact roundTripOnWholeGroups _ groups

end Sys2Proof.Machine
end
